-- ==== Sys2Proof/Word.lean ====
section
/-! DEFINITION. The word types of the block: every register, PC and address value is a 32-bit unsigned
integer (00_scope.md R7); instruction fields keep the widths of 30_encoding.md R82. -/

namespace Sys2Proof

/-- A register, PC or address value (R7: `u32`). -/
abbrev Word := BitVec 32

/-- One byte of memory (R50). -/
abbrev Byte := BitVec 8

/-- A general-register number, the 5-bit `rs`, `rt` or `rd` field (R23, R82). -/
abbrev Reg := BitVec 5

end Sys2Proof
end

