-- ==== Sys2Proof/Machine/Flags.lean ====
section
/-! DEFINITION. Comparisons. The processor has no flags (10_state.md R31): a comparison writes a general
register (SLT, SLTI) or decides a branch directly, on the signed reading of register contents (R7). -/

namespace Sys2Proof.Machine

/-- 1 if the signed value of `a` is less than that of `b`, else 0 (R128, R132). -/
def setOnLess (a b : Word) : Word := if a.toInt < b.toInt then 1#32 else 0#32

/-- `signed(a) <= 0` (R172). -/
def lessEqualZero (a : Word) : Bool := decide (a.toInt ≤ 0)
/-- `signed(a) > 0` (R173). -/
def greaterZero (a : Word) : Bool := decide (0 < a.toInt)
/-- `signed(a) < 0` (R174). -/
def lessZero (a : Word) : Bool := decide (a.toInt < 0)
/-- `signed(a) >= 0` (R175). -/
def greaterEqualZero (a : Word) : Bool := decide (0 ≤ a.toInt)

end Sys2Proof.Machine
end

