-- ==== Sys2Proof/Syntax.lean ====
section
/-! DEFINITION. The decoded instruction: a tagged variant over three shapes, carrying exactly the fields
its format possesses (30_encoding.md R83), one constructor per row of spec/opcode_table.json. -/

namespace Sys2Proof

/-- The three instruction formats (R81). -/
inductive Format where
  | r | i | j
deriving DecidableEq, Repr

/-- The fields of an R-format record (R82, R83); the opcode is 0 and the funct is the tag. -/
structure RFields where
  rs    : Reg
  rt    : Reg
  rd    : Reg
  shamt : BitVec 5
deriving DecidableEq, Repr

/-- The fields of an I-format record (R82, R83); the opcode is the tag. -/
structure IFields where
  rs  : Reg
  rt  : Reg
  imm : BitVec 16
deriving DecidableEq, Repr

/-- The field of a J-format record (R82, R83); the opcode is the tag. -/
structure JFields where
  target : BitVec 26
deriving DecidableEq, Repr

/-- The 44 instructions (R2), in the order of spec/opcode_table.json. -/
inductive Instr where
  -- R-format, selected by funct (R85)
  | sll (f : RFields)
  | srl (f : RFields)
  | sra (f : RFields)
  | jr (f : RFields)
  | jalr (f : RFields)
  | syscall (f : RFields)
  | mfhi (f : RFields)
  | mthi (f : RFields)
  | mflo (f : RFields)
  | mtlo (f : RFields)
  | mult (f : RFields)
  | multu (f : RFields)
  | div (f : RFields)
  | divu (f : RFields)
  | add (f : RFields)
  | addu (f : RFields)
  | sub (f : RFields)
  | subu (f : RFields)
  | and (f : RFields)
  | or (f : RFields)
  | xor (f : RFields)
  | nor (f : RFields)
  | slt (f : RFields)
  -- I-format, selected by opcode (R86)
  | beq (f : IFields)
  | bne (f : IFields)
  | blez (f : IFields)
  | bgtz (f : IFields)
  | addi (f : IFields)
  | addiu (f : IFields)
  | slti (f : IFields)
  | andi (f : IFields)
  | ori (f : IFields)
  | xori (f : IFields)
  | lui (f : IFields)
  | lb (f : IFields)
  | lh (f : IFields)
  | lw (f : IFields)
  | sb (f : IFields)
  | sh (f : IFields)
  | sw (f : IFields)
  -- I-format opcode 0x01, selected by rt (R87)
  | bltz (f : IFields)
  | bgez (f : IFields)
  -- J-format, selected by opcode (R88)
  | j (f : JFields)
  | jal (f : JFields)
deriving DecidableEq, Repr

end Sys2Proof
end

