-- ==== Sys2Proof/Decode.lean ====
section
/-! DEFINITION. The decoder, total on any word and any bytes, and the encoder beside it (30_encoding.md).
The opcode, funct and rt numbers are those of R85 to R88 and spec/opcode_table.json. -/

namespace Sys2Proof

/-- Why a word is no instruction. Every one of these is the spec's single DecodeFault (R90). -/
inductive DecodeReject where
  | unmappedFunct    -- opcode 0x00 with a funct outside R85's table
  | unmappedRegimm   -- opcode 0x01 with rt neither 0 nor 1
  | unmappedOpcode   -- an I-format opcode outside R86's table
  | tooFewBytes      -- fewer than the 4 bytes of an instruction (R80)
deriving DecidableEq, Repr

/-- What the decoder answers: an instruction record or DecodeFault (R93). -/
inductive Decoded where
  | instr (i : Instr)
  | reject (r : DecodeReject)
deriving DecidableEq, Repr

/-! ### Fields (R82) -/

/-- `opcode = w[31:26]`. -/
def opcodeOf (w : Word) : BitVec 6 := w.extractLsb' 26 6
/-- `rs = w[25:21]`. -/
def rsOf (w : Word) : Reg := w.extractLsb' 21 5
/-- `rt = w[20:16]`. -/
def rtOf (w : Word) : Reg := w.extractLsb' 16 5
/-- `rd = w[15:11]`. -/
def rdOf (w : Word) : Reg := w.extractLsb' 11 5
/-- `shamt = w[10:6]`. -/
def shamtOf (w : Word) : BitVec 5 := w.extractLsb' 6 5
/-- `funct = w[5:0]`. -/
def functOf (w : Word) : BitVec 6 := w.extractLsb' 0 6
/-- `imm = w[15:0]`. -/
def immOf (w : Word) : BitVec 16 := w.extractLsb' 0 16
/-- `target = w[25:0]`. -/
def targetOf (w : Word) : BitVec 26 := w.extractLsb' 0 26

/-- The R-format record of a word (R82, R83). -/
def rFieldsOf (w : Word) : RFields := { rs := rsOf w, rt := rtOf w, rd := rdOf w, shamt := shamtOf w }
/-- The I-format record of a word (R82, R83). -/
def iFieldsOf (w : Word) : IFields := { rs := rsOf w, rt := rtOf w, imm := immOf w }
/-- The J-format record of a word (R82, R83). -/
def jFieldsOf (w : Word) : JFields := { target := targetOf w }

/-- Format classification looks only at the opcode, and never faults (R81). -/
def formatOf (w : Word) : Format :=
  if opcodeOf w = 0x00#6 then .r
  else if opcodeOf w = 0x02#6 ∨ opcodeOf w = 0x03#6 then .j
  else .i

/-! ### The opcode map (R85 to R88) -/

/-- R85: R-format, selected by funct. -/
def rTable : List (BitVec 6 × (RFields → Instr)) :=
  [ (0x00#6, .sll),  (0x02#6, .srl),  (0x03#6, .sra),  (0x08#6, .jr),   (0x09#6, .jalr),
    (0x0C#6, .syscall) ]
  ++
  [ (0x10#6, .mfhi), (0x11#6, .mthi), (0x12#6, .mflo), (0x13#6, .mtlo),
    (0x18#6, .mult), (0x19#6, .multu), (0x1A#6, .div), (0x1B#6, .divu) ]
  ++
  [ (0x20#6, .add),  (0x21#6, .addu), (0x22#6, .sub),  (0x23#6, .subu),
    (0x24#6, .and),  (0x25#6, .or),   (0x26#6, .xor),  (0x27#6, .nor),  (0x2A#6, .slt) ]

/-- R86: I-format, selected by opcode alone. -/
def iTable : List (BitVec 6 × (IFields → Instr)) :=
  [ (0x04#6, .beq),  (0x05#6, .bne),  (0x06#6, .blez), (0x07#6, .bgtz),
    (0x08#6, .addi), (0x09#6, .addiu), (0x0A#6, .slti),
    (0x0C#6, .andi), (0x0D#6, .ori),  (0x0E#6, .xori), (0x0F#6, .lui) ]
  ++
  [ (0x20#6, .lb),   (0x21#6, .lh),   (0x23#6, .lw),
    (0x28#6, .sb),   (0x29#6, .sh),   (0x2B#6, .sw) ]

/-- The designated I-format opcode whose `rt` selects the branch (R87). -/
def regimmOpcode : BitVec 6 := 0x01#6

/-- R87: I-format opcode 0x01, selected by rt. -/
def regimmTable : List (Reg × (IFields → Instr)) := [ (0x00#5, .bltz), (0x01#5, .bgez) ]

/-- R88: J-format, selected by opcode. -/
def jTable : List (BitVec 6 × (JFields → Instr)) := [ (0x02#6, .j), (0x03#6, .jal) ]

/-- The record a table makes of a word's fields, or the rejection where the table has no row (R90). -/
def tag {α : Type} (row : Option (α → Instr)) (fields : α) (r : DecodeReject) : Decoded :=
  match row with
  | some mk => .instr (mk fields)
  | none => .reject r

/-- The decode function of R93: pure, total, and blind to every field outside the lookup key (R91). -/
def decode (w : Word) : Decoded :=
  match formatOf w with
  | .r => tag (rTable.lookup (functOf w)) (rFieldsOf w) .unmappedFunct
  | .j => tag (jTable.lookup (opcodeOf w)) (jFieldsOf w) .unmappedOpcode
  | .i =>
    if opcodeOf w = regimmOpcode then tag (regimmTable.lookup (rtOf w)) (iFieldsOf w) .unmappedRegimm
    else tag (iTable.lookup (opcodeOf w)) (iFieldsOf w) .unmappedOpcode

/-- The word of four bytes, the first the least significant (20_memory.md R53). -/
def wordOfBytes (b0 b1 b2 b3 : Byte) : Word := b3 ++ b2 ++ b1 ++ b0

/-- The four bytes of a word, the least significant first (20_memory.md R53). -/
def bytesOfWord (w : Word) : List Byte :=
  [w.extractLsb' 0 8, w.extractLsb' 8 8, w.extractLsb' 16 8, w.extractLsb' 24 8]

/-- The instruction at the head of a run of bytes; every instruction is 4 bytes long (R80). -/
def decodeBytes : List Byte → Decoded
  | b0 :: b1 :: b2 :: b3 :: _ => decode (wordOfBytes b0 b1 b2 b3)
  | _ => .reject .tooFewBytes

/-- The instruction of an opcode-table row whose bits are `w`: the bits above `nbits` are 0, the bytes are
laid out as memory holds them, and the decoder reads them. -/
def decodeTableWord (nbits w : Nat) : Option Instr :=
  match decodeBytes (bytesOfWord (BitVec.ofNat 32 (w % 2 ^ nbits))) with
  | .instr i => some i
  | .reject _ => none

/-! ### The encoder -/

/-- An R-format word: opcode 0, then rs, rt, rd, shamt and funct from the top (R82). -/
def encodeR (funct : BitVec 6) (f : RFields) : Word :=
  0x00#6 ++ f.rs ++ f.rt ++ f.rd ++ f.shamt ++ funct

/-- An I-format word: opcode, rs, rt and the immediate from the top (R82). -/
def encodeI (opcode : BitVec 6) (f : IFields) : Word := opcode ++ f.rs ++ f.rt ++ f.imm

/-- A J-format word: opcode and target from the top (R82). -/
def encodeJ (opcode : BitVec 6) (f : JFields) : Word := opcode ++ f.target

/-- The word of a well-formed instruction (R82, R85 to R88). Since a record keeps every field of its format
(R83), this is the raw word the record was decoded from, ignored fields included (DEDUCED, log entry 9). -/
def encode : Instr → Word
  | .sll f => encodeR 0x00#6 f
  | .srl f => encodeR 0x02#6 f
  | .sra f => encodeR 0x03#6 f
  | .jr f => encodeR 0x08#6 f
  | .jalr f => encodeR 0x09#6 f
  | .syscall f => encodeR 0x0C#6 f
  | .mfhi f => encodeR 0x10#6 f
  | .mthi f => encodeR 0x11#6 f
  | .mflo f => encodeR 0x12#6 f
  | .mtlo f => encodeR 0x13#6 f
  | .mult f => encodeR 0x18#6 f
  | .multu f => encodeR 0x19#6 f
  | .div f => encodeR 0x1A#6 f
  | .divu f => encodeR 0x1B#6 f
  | .add f => encodeR 0x20#6 f
  | .addu f => encodeR 0x21#6 f
  | .sub f => encodeR 0x22#6 f
  | .subu f => encodeR 0x23#6 f
  | .and f => encodeR 0x24#6 f
  | .or f => encodeR 0x25#6 f
  | .xor f => encodeR 0x26#6 f
  | .nor f => encodeR 0x27#6 f
  | .slt f => encodeR 0x2A#6 f
  | .beq f => encodeI 0x04#6 f
  | .bne f => encodeI 0x05#6 f
  | .blez f => encodeI 0x06#6 f
  | .bgtz f => encodeI 0x07#6 f
  | .addi f => encodeI 0x08#6 f
  | .addiu f => encodeI 0x09#6 f
  | .slti f => encodeI 0x0A#6 f
  | .andi f => encodeI 0x0C#6 f
  | .ori f => encodeI 0x0D#6 f
  | .xori f => encodeI 0x0E#6 f
  | .lui f => encodeI 0x0F#6 f
  | .lb f => encodeI 0x20#6 f
  | .lh f => encodeI 0x21#6 f
  | .lw f => encodeI 0x23#6 f
  | .sb f => encodeI 0x28#6 f
  | .sh f => encodeI 0x29#6 f
  | .sw f => encodeI 0x2B#6 f
  | .bltz f => encodeI regimmOpcode f
  | .bgez f => encodeI regimmOpcode f
  | .j f => encodeJ 0x02#6 f
  | .jal f => encodeJ 0x03#6 f

end Sys2Proof
end

