-- ==== Sys2Proof/Config.lean ====
section
/-! DEFINITION. The implementation parameters of 00_scope.md R5 and the segment map of 20_memory.md R51.
The spec makes them configuration, not state (10_state.md R20): the model takes them as an argument. -/

namespace Sys2Proof

/-- The four segments of the address space (R50). -/
inductive SegmentName where
  | text | data | ktext | kdata
deriving DecidableEq, Repr

/-- One segment: the half-open address range `[base, base + size)` (R51). -/
structure Segment where
  base : Word
  size : Nat
deriving DecidableEq, Repr

/-- The parameter `SEGMENT_MAP` (R51). -/
structure SegmentMap where
  text  : Segment
  data  : Segment
  ktext : Segment
  kdata : Segment
deriving DecidableEq, Repr

/-- The segment of a name. -/
def SegmentMap.segment (m : SegmentMap) : SegmentName → Segment
  | .text => m.text
  | .data => m.data
  | .ktext => m.ktext
  | .kdata => m.kdata

/-- `SHIFT_SOURCE` (43_shifts.md R139, decision D4): the register a shift shifts. -/
inductive ShiftSource where
  | rt | rs
deriving DecidableEq, Repr

/-- `EA_BASE_MODE` (45_loads_stores.md R158, decision D10). -/
inductive EaBaseMode where
  | absolute | dataRelative
deriving DecidableEq, Repr

/-- `MISALIGNED_POLICY` (20_memory.md R56, decision D11). -/
inductive MisalignedPolicy where
  | refuse | consecutiveBytes
deriving DecidableEq, Repr

/-- `SYSCALL_HALT_CONDITION` (47_system.md R185, decision D14). -/
inductive SyscallHaltCondition where
  | v0Equals10 | always
deriving DecidableEq, Repr

/-- `DIV_OVERFLOW_RESULT` (44_muldiv_hilo.md R152, decision D17). -/
inductive DivOverflowResult where
  | wrap | refuse
deriving DecidableEq, Repr

/-- The configuration of one machine: the parameters of R5 that a model may vary, and the program image
that reset loads (R20, R214). `R0_HARDWIRED`, `COUNTER_WIDTH` and `LINK_OFFSET` do not vary. -/
structure Config where
  segments           : SegmentMap
  image              : List Word
  shiftSource        : ShiftSource
  eaBaseMode         : EaBaseMode
  misalignedPolicy   : MisalignedPolicy
  syscallHalt        : SyscallHaltCondition
  divOverflow        : DivOverflowResult
deriving DecidableEq, Repr

/-- `TEXT_BASE` is the TEXT base (R51). -/
def Config.textBase (c : Config) : Word := c.segments.text.base

/-- The size of every segment of the default map (decision D12). -/
def SegmentMap.defaultSize : Nat := 0x00100000

/-- The default segment map (R51, decision D12). -/
def SegmentMap.default : SegmentMap where
  text  := { base := 0x00400000#32, size := SegmentMap.defaultSize }
  data  := { base := 0x10010000#32, size := SegmentMap.defaultSize }
  ktext := { base := 0x80000000#32, size := SegmentMap.defaultSize }
  kdata := { base := 0x90000000#32, size := SegmentMap.defaultSize }

/-- The default value of every parameter (R5), with no program image. -/
def Config.default : Config where
  segments           := SegmentMap.default
  image              := []
  shiftSource        := .rt
  eaBaseMode         := .absolute
  misalignedPolicy   := .refuse
  syscallHalt        := .v0Equals10
  divOverflow        := .wrap

/-- `LINK_OFFSET`, fixed at 8 by the source (R5, 46_control_transfer.md R168). -/
def linkOffset : Word := 8#32

/-- The value of register 2 on which SYSCALL halts under `V0Equals10` (R185). -/
def exitService : Word := 0x0000000A#32

end Sys2Proof
end

