-- ==== Sys2Proof/Machine/State.lean ====
section
/-! DEFINITION. The state of the block as plain data (10_state.md R20), the state after reset
(10_state.md R36), and the ways a step can stop. -/

namespace Sys2Proof.Machine

/-- One copy of the processor state (R20): PC, the 32 general registers, HI and LO. -/
structure Proc where
  pc   : Word
  regs : Vector Word 32
  hi   : Word
  lo   : Word
deriving DecidableEq, Repr

/-- The run flag (R33). -/
inductive RunFlag where
  | running | halted
deriving DecidableEq, Repr

/-- Why the Step Controller stopped (60_exceptions.md R190). -/
inductive HaltReason where
  | halt | userStop | decodeFault | divideByZero | alignmentViolation
deriving DecidableEq, Repr

/-- The halt report `{reason, pc, word, addr}` (R35): the word is absent for a user stop and for a fetch that
faulted, the address is present for AlignmentViolation only. -/
structure HaltReport where
  reason : HaltReason
  pc     : Word
  word   : Option Word
  addr   : Option Word
deriving DecidableEq, Repr

/-- The bytes of every segment, as one list of (address, byte) pairs in the canonical form `Memory.wf`
(DEDUCED, log entry 5). -/
abbrev Memory := List Host.Cell

/-- What an unlisted address reads as: 0, the reset content of every byte of every segment (R36). -/
def unlistedByte : Byte := 0x00#8

/-- The canonical form: addresses strictly rising and inside the 2^32 addresses of R50, and no entry equal to
what an unlisted address reads as. -/
abbrev Memory.wf (m : Memory) : Prop :=
  m.Pairwise (fun c d => c.1 < d.1) ∧ ∀ c ∈ m, c.1 < 2 ^ 32 ∧ c.2 ≠ unlistedByte

/-- The state (R20): the processor state held twice, the memory held once, the Step Controller's run flag,
instruction counter and halt report; and the machine's configuration, which no step changes (DESIGN CHOICE, log
entry 1). -/
structure State where
  config  : Config
  current : Proc
  next    : Proc
  mem     : Memory
  run     : RunFlag
  count   : Nat
  report  : Option HaltReport
deriving DecidableEq, Repr

/-- Faults that stop the model outside a step. The spec's own faults (R190) are no such stop: they take the
next state that 40_execution_cycle.md R106 describes. -/
inductive Fault where
  /-- Raised by the host's `loadWord` at a misaligned address under `MISALIGNED_POLICY = Refuse` (R71, R56):
  the word is not written (DEDUCED, log entry 6). Never raised by an instruction or a step. Safe: the model stops. -/
  | loadWordMisaligned (addr : Word)
deriving DecidableEq, Repr

/-- Marked refusals. -/
inductive Refusal where
  /-- Raised by an arm of `exec` that has no meaning yet (none, in this model). Safe: the model stops. -/
  | notModelled (mnemonic : String)
  /-- Raised by DIV of 0x80000000 by 0xFFFFFFFF under `DIV_OVERFLOW_RESULT = Refuse`, where R152 says the operand
  pair has no meaning and the model refuses, committing nothing (log entry 13). Safe: the model stops. -/
  | divOverflow
deriving DecidableEq, Repr

/-- What a step or an instruction answers. -/
abbrev Result := Host.Outcome State Fault Refusal

/-- The processor state after reset (R36): every register 0, PC at the given address. -/
def Proc.initial (pc : Word) : Proc where
  pc   := pc
  regs := Vector.replicate 32 0#32
  hi   := 0#32
  lo   := 0#32

/-- The state reset leaves before the program image is loaded (R36, 70_reset_and_hazards.md R210). -/
def State.initial (c : Config) : State where
  config  := c
  current := Proc.initial c.textBase
  next    := Proc.initial c.textBase
  mem     := []
  run     := .running
  count   := 0
  report  := none

/-- The machine right after reset (R36, R210) under the default parameters of R5, with no program image
(DESIGN CHOICE, log entry 2). -/
def State.reset : State := State.initial Config.default

end Sys2Proof.Machine
end

