-- ==== Sys2Proof/Machine/Ops.lean ====
section
/-! DEFINITION. The operations every meaning is written over: reading `current`, writing `next`, commit,
faults and halts, address decoding, and the memory primitives. -/

namespace Sys2Proof

/-- Whether an address lies in the half-open range of a segment (R51). -/
def Segment.contains (g : Segment) (a : Word) : Bool :=
  decide (g.base.toNat ≤ a.toNat) && decide (a.toNat < g.base.toNat + g.size)

/-- Address decoding `seg(a)`: the segment whose range contains the address, or none (R52). -/
def SegmentMap.seg (m : SegmentMap) (a : Word) : Option SegmentName :=
  [SegmentName.text, .data, .ktext, .kdata].find? fun n => (m.segment n).contains a

/-- An address that R52 resolves to a segment; the others are "invalid" and behave as R57 says. -/
def Config.mapped (c : Config) (a : Word) : Bool := (c.segments.seg a).isSome

namespace Machine

/-- Access widths of the memory port (00_scope.md R11, R62). -/
inductive Size where
  | byte | half | word
deriving DecidableEq, Repr

/-- How many bytes an access moves (R62). -/
def Size.bytes : Size → Nat
  | .byte => 1
  | .half => 2
  | .word => 4

/-! ### The backing bytes -/

/-- The byte at an address. -/
def Memory.read : Memory → Nat → Byte
  | [], _ => unlistedByte
  | c :: m, a => if c.1 = a then c.2 else Memory.read m a

/-- Store one byte, keeping the canonical form: the value an unlisted address reads as is not listed. -/
def Memory.write : Memory → Nat → Byte → Memory
  | [], a, b => if b = unlistedByte then [] else [(a, b)]
  | c :: m, a, b =>
    if a < c.1 then (if b = unlistedByte then c :: m else (a, b) :: c :: m)
    else if c.1 = a then (if b = unlistedByte then m else (a, b) :: m)
    else c :: Memory.write m a b

/-! ### Reading `current` (00_scope.md R8) -/

/-- A general register of one copy; register 0 reads as zero (R24). -/
def Proc.reg (p : Proc) (r : Reg) : Word :=
  if r = 0#5 then 0#32 else p.regs[r.toNat]'r.isLt

/-- Writing a general register of one copy; a write to register 0 is discarded (R24). -/
def Proc.setReg (p : Proc) (r : Reg) (v : Word) : Proc :=
  if r = 0#5 then p else { p with regs := p.regs.set r.toNat v r.isLt }

/-- `pc`: the current PC, the address the instruction was fetched from (R8, R28). -/
def State.pc (s : State) : Word := s.current.pc
/-- `x[i]`: general register `i` of the current copy (R8). -/
def State.reg (s : State) (r : Reg) : Word := s.current.reg r
/-- `HI` of the current copy (R8). -/
def State.hi (s : State) : Word := s.current.hi
/-- `LO` of the current copy (R8). -/
def State.lo (s : State) : Word := s.current.lo

/-! ### Writing `next` (00_scope.md R8) -/

/-- The start of a step: `next := current`, then `next.PC := pc + 4` (R22, R101, R103). -/
def State.beginStep (s : State) : State :=
  { s with next := { s.current with pc := s.pc + 4#32 } }

/-- `pc <- target`. -/
def State.setPc (s : State) (target : Word) : State := { s with next := { s.next with pc := target } }
/-- `x[i] <- v`. -/
def State.setReg (s : State) (r : Reg) (v : Word) : State := { s with next := s.next.setReg r v }
/-- `HI <- v`. -/
def State.setHi (s : State) (v : Word) : State := { s with next := { s.next with hi := v } }
/-- `LO <- v`. -/
def State.setLo (s : State) (v : Word) : State := { s with next := { s.next with lo := v } }

/-- Force `next.REGS[0]` to 0 (R104). -/
def Proc.forceZero (p : Proc) : Proc := { p with regs := p.regs.set 0 0#32 }

/-- Commit: `next.REGS[0]` is forced to 0 (R104), `next` becomes `current`, and the counter goes up by one
(R101, R105). -/
def State.commit (s : State) : State :=
  { s with current := s.next.forceZero, next := s.next.forceZero, count := s.count + 1 }

/-! ### Faults and halts -/

/-- `raise`: a fault ends the step without commit (R106). `next` is discarded, `current`, memory and the counter
are unchanged, the run flag becomes HALTED, and the report records the reason, the faulting instruction's
address, its word and, for AlignmentViolation, the address accessed (R35, R190). There is no trap entry (R198)
and no return: HALTED is left only by reset (R199). That `next` then equals `current` is DEDUCED (log entry 11). -/
def State.raise (s : State) (reason : HaltReason) (word addr : Option Word) : State :=
  { s with
    next := s.current
    run := .halted
    report := some { reason := reason, pc := s.pc, word := word, addr := addr } }

/-- The clean end that SYSCALL requests, taken after its commit (R101, R185). -/
def State.halt (s : State) (pc word : Word) : State :=
  { s with run := .halted, report := some { reason := .halt, pc := pc, word := some word, addr := none } }

/-! ### The memory primitives -/

/-- One byte of the address space: an address in no segment reads 0 (R57). -/
def State.loadByte (s : State) (a : Word) : Byte :=
  if s.config.mapped a then s.mem.read a.toNat else 0x00#8

/-- Store one byte: an address in no segment ignores the write (R57). -/
def State.storeByte (s : State) (a : Word) (b : Byte) : State :=
  if s.config.mapped a then { s with mem := s.mem.write a.toNat b } else s

/-- An access that `MISALIGNED_POLICY = Refuse` does not perform (R55, R56). -/
def State.refusesAccess (s : State) (a : Word) (n : Size) : Bool :=
  s.config.misalignedPolicy == .refuse && a.toNat % n.bytes != 0

/-- The bytes `a`, `a + 1`, … as one little-endian unsigned value (R53, R58); addresses wrap (R7; DEDUCED, log
entry 5). -/
def State.readBytes (s : State) (a : Word) : Nat → Word
  | 0 => 0#32
  | k + 1 => (s.loadByte a).setWidth 32 ||| (s.readBytes (a + 1#32) k <<< 8)

/-- Store the low bytes of a value at `a`, `a + 1`, …, the least significant first (R53, R59). -/
def State.writeBytes (s : State) (a v : Word) : Nat → State
  | 0 => s
  | k + 1 => (s.storeByte a (v.setWidth 8)).writeBytes (a + 1#32) (v >>> 8) k

/-- `MemRead(a, n)` of an access that is performed (R58). -/
def State.memRead (s : State) (a : Word) (n : Size) : Word := s.readBytes a n.bytes

/-- `MemWrite(a, n, v)` of an access that is performed (R59). Memory is written directly, not through the
double buffer (R60). -/
def State.memWrite (s : State) (a : Word) (n : Size) (v : Word) : State := s.writeBytes a v n.bytes

/-! ### What a completed instruction does -/

/-- An instruction whose only effect is the default PC advance (R103). -/
def State.advance (s : State) : State := s.beginStep.commit

/-- An instruction that writes one general register (R26). -/
def State.writeBack (s : State) (r : Reg) (v : Word) : State := (s.beginStep.setReg r v).commit

/-- An instruction that writes HI and LO (R30). -/
def State.writeHiLo (s : State) (hi lo : Word) : State := ((s.beginStep.setHi hi).setLo lo).commit

/-- An instruction that writes the PC (R103). -/
def State.jump (s : State) (target : Word) : State := (s.beginStep.setPc target).commit

/-- An instruction that writes a link register and the PC (46_control_transfer.md R168). -/
def State.jumpAndLink (s : State) (r : Reg) (link target : Word) : State :=
  ((s.beginStep.setReg r link).setPc target).commit

/-- A conditional branch: the target when taken, else the default advance (R103, R166). -/
def State.branch (s : State) (taken : Bool) (target : Word) : State :=
  if taken then s.jump target else s.advance

/-- A load: the alignment check of R56, then the read, then the register write. -/
def State.load (s : State) (i : Instr) (ea : Word) (n : Size) (extend : Word → Word) (r : Reg) : Result :=
  if s.refusesAccess ea n then .next (s.raise .alignmentViolation (some (encode i)) (some ea))
  else .next (s.writeBack r (extend (s.memRead ea n)))

/-- A store: the alignment check of R56 comes before its write (R60). -/
def State.store (s : State) (i : Instr) (ea : Word) (n : Size) (v : Word) : Result :=
  if s.refusesAccess ea n then .next (s.raise .alignmentViolation (some (encode i)) (some ea))
  else .next (s.beginStep.memWrite ea n v).commit

end Machine

end Sys2Proof
end

