-- ==== Sys2Proof/Machine/Operands.lean ====
section
/-! DEFINITION. Operand assembly, per instruction class (30_encoding.md R89). -/

namespace Sys2Proof.Machine

/-- `sext_32` of a 16-bit immediate (R7). -/
def sext32 (imm : BitVec 16) : Word := imm.signExtend 32

/-- `zext_32` of a 16-bit immediate (R7). -/
def zext32 (imm : BitVec 16) : Word := imm.setWidth 32

/-- The upper immediate of LUI: `imm || 0x0000` (R89, R136). -/
def upperImm (imm : BitVec 16) : Word := imm ++ 0x0000#16

/-- Copies of bit 7 enter bits 31:8 of a byte read (R161). -/
def sextByte (v : Word) : Word := (v.setWidth 8).signExtend 32

/-- Copies of bit 15 enter bits 31:16 of a halfword read (R162). -/
def sextHalf (v : Word) : Word := (v.setWidth 16).signExtend 32

/-- The value a shift shifts: `x[rt]`, or `x[rs]` under `SHIFT_SOURCE = rs` (43_shifts.md R139; log entry 14). -/
def State.shiftOperand (s : State) (f : RFields) : Word :=
  match s.config.shiftSource with
  | .rt => s.reg f.rt
  | .rs => s.reg f.rs

/-- The effective address of a load or store (45_loads_stores.md R158). -/
def State.effectiveAddress (s : State) (f : IFields) : Word :=
  match s.config.eaBaseMode with
  | .absolute => s.reg f.rs + sext32 f.imm
  | .dataRelative => s.config.segments.data.base + s.reg f.rs + sext32 f.imm

/-- `btarget = pc + 4 + (sext_32(imm) << 2)` (46_control_transfer.md R166). -/
def State.branchTarget (s : State) (f : IFields) : Word := s.pc + 4#32 + (sext32 f.imm <<< 2)

/-- `jtarget = (pc & 0xF0000000) | (target << 2)` (46_control_transfer.md R169). -/
def State.jumpTarget (s : State) (f : JFields) : Word :=
  (s.pc &&& 0xF0000000#32) ||| (f.target.setWidth 32 <<< 2)

/-- The link value `pc + LINK_OFFSET` (46_control_transfer.md R168). -/
def State.linkValue (s : State) : Word := s.pc + linkOffset

end Sys2Proof.Machine
end

