-- ==== Sys2Proof/Machine/AluImmediate.lean ====
section
/-! DEFINITION. Immediate arithmetic, logic and LUI (42_alu_immediate.md R130 to R136). -/

namespace Sys2Proof.Machine

/-- R130 ADDI: `x[rt] <- x[rs] + sext_32(imm)`; a signed overflow wraps and does not trap. -/
def execAddi (f : IFields) (s : State) : Result :=
  .next (s.writeBack f.rt (s.reg f.rs + sext32 f.imm))

/-- R131 ADDIU: `x[rt] <- x[rs] + sext_32(imm)`. -/
def execAddiu (f : IFields) (s : State) : Result :=
  .next (s.writeBack f.rt (s.reg f.rs + sext32 f.imm))

/-- R132 SLTI: `x[rt] <- (signed(x[rs]) < signed(sext_32(imm))) ? 1 : 0`. -/
def execSlti (f : IFields) (s : State) : Result :=
  .next (s.writeBack f.rt (setOnLess (s.reg f.rs) (sext32 f.imm)))

/-- R133 ANDI: `x[rt] <- x[rs] & zext_32(imm)`. -/
def execAndi (f : IFields) (s : State) : Result :=
  .next (s.writeBack f.rt (s.reg f.rs &&& zext32 f.imm))

/-- R134 ORI: `x[rt] <- x[rs] | zext_32(imm)`. -/
def execOri (f : IFields) (s : State) : Result :=
  .next (s.writeBack f.rt (s.reg f.rs ||| zext32 f.imm))

/-- R135 XORI: `x[rt] <- x[rs] ^ zext_32(imm)`. -/
def execXori (f : IFields) (s : State) : Result :=
  .next (s.writeBack f.rt (s.reg f.rs ^^^ zext32 f.imm))

/-- R136 LUI: `x[rt] <- imm << 16`. -/
def execLui (f : IFields) (s : State) : Result :=
  .next (s.writeBack f.rt (upperImm f.imm))

end Sys2Proof.Machine
end

