-- ==== Sys2Proof/Machine/AluRegister.lean ====
section
/-! DEFINITION. Register arithmetic and logic (41_alu_register.md R120 to R128). -/

namespace Sys2Proof.Machine

/-- R120 ADD: `x[rd] <- x[rs] + x[rt]`; a signed overflow wraps and does not trap. -/
def execAdd (f : RFields) (s : State) : Result :=
  .next (s.writeBack f.rd (s.reg f.rs + s.reg f.rt))

/-- R121 ADDU: `x[rd] <- x[rs] + x[rt]`. -/
def execAddu (f : RFields) (s : State) : Result :=
  .next (s.writeBack f.rd (s.reg f.rs + s.reg f.rt))

/-- R122 SUB: `x[rd] <- x[rs] - x[rt]`; a signed overflow wraps and does not trap. -/
def execSub (f : RFields) (s : State) : Result :=
  .next (s.writeBack f.rd (s.reg f.rs - s.reg f.rt))

/-- R123 SUBU: `x[rd] <- x[rs] - x[rt]`. -/
def execSubu (f : RFields) (s : State) : Result :=
  .next (s.writeBack f.rd (s.reg f.rs - s.reg f.rt))

/-- R124 AND: `x[rd] <- x[rs] & x[rt]`. -/
def execAnd (f : RFields) (s : State) : Result :=
  .next (s.writeBack f.rd (s.reg f.rs &&& s.reg f.rt))

/-- R125 OR: `x[rd] <- x[rs] | x[rt]`. -/
def execOr (f : RFields) (s : State) : Result :=
  .next (s.writeBack f.rd (s.reg f.rs ||| s.reg f.rt))

/-- R126 XOR: `x[rd] <- x[rs] ^ x[rt]`. -/
def execXor (f : RFields) (s : State) : Result :=
  .next (s.writeBack f.rd (s.reg f.rs ^^^ s.reg f.rt))

/-- R127 NOR: `x[rd] <- ~(x[rs] | x[rt])`. -/
def execNor (f : RFields) (s : State) : Result :=
  .next (s.writeBack f.rd (~~~(s.reg f.rs ||| s.reg f.rt)))

/-- R128 SLT: `x[rd] <- (signed(x[rs]) < signed(x[rt])) ? 1 : 0`. -/
def execSlt (f : RFields) (s : State) : Result :=
  .next (s.writeBack f.rd (setOnLess (s.reg f.rs) (s.reg f.rt)))

end Sys2Proof.Machine
end

