-- ==== Sys2Proof/Machine/Control.lean ====
section
/-! DEFINITION. Branches and jumps (46_control_transfer.md R166 to R180). There is no delay slot (R167). -/

namespace Sys2Proof.Machine

/-- R170 BEQ: `if x[rs] = x[rt]: pc <- btarget`. -/
def execBeq (f : IFields) (s : State) : Result :=
  .next (s.branch (s.reg f.rs == s.reg f.rt) (s.branchTarget f))

/-- R171 BNE: `if x[rs] != x[rt]: pc <- btarget`. -/
def execBne (f : IFields) (s : State) : Result :=
  .next (s.branch (s.reg f.rs != s.reg f.rt) (s.branchTarget f))

/-- R172 BLEZ: `if signed(x[rs]) <= 0: pc <- btarget`. -/
def execBlez (f : IFields) (s : State) : Result :=
  .next (s.branch (lessEqualZero (s.reg f.rs)) (s.branchTarget f))

/-- R173 BGTZ: `if signed(x[rs]) > 0: pc <- btarget`. -/
def execBgtz (f : IFields) (s : State) : Result :=
  .next (s.branch (greaterZero (s.reg f.rs)) (s.branchTarget f))

/-- R174 BLTZ: `if signed(x[rs]) < 0: pc <- btarget`. -/
def execBltz (f : IFields) (s : State) : Result :=
  .next (s.branch (lessZero (s.reg f.rs)) (s.branchTarget f))

/-- R175 BGEZ: `if signed(x[rs]) >= 0: pc <- btarget`. -/
def execBgez (f : IFields) (s : State) : Result :=
  .next (s.branch (greaterEqualZero (s.reg f.rs)) (s.branchTarget f))

/-- R176 J: `pc <- jtarget`. -/
def execJ (f : JFields) (s : State) : Result :=
  .next (s.jump (s.jumpTarget f))

/-- R177 JAL: `x[31] <- pc + 8`; `pc <- jtarget`. -/
def execJal (f : JFields) (s : State) : Result :=
  .next (s.jumpAndLink 31#5 s.linkValue (s.jumpTarget f))

/-- R179 JR: `pc <- x[rs]`. -/
def execJr (f : RFields) (s : State) : Result :=
  .next (s.jump (s.reg f.rs))

/-- R180 JALR: `x[rd] <- pc + 8`; `pc <- x[rs]`, the pre-instruction value. -/
def execJalr (f : RFields) (s : State) : Result :=
  .next (s.jumpAndLink f.rd s.linkValue (s.reg f.rs))

end Sys2Proof.Machine
end

