-- ==== Sys2Proof/Machine/LoadStore.lean ====
section
/-! DEFINITION. Loads and stores (45_loads_stores.md R158 to R165). -/

namespace Sys2Proof.Machine

/-- R160 LW: `x[rt] <- MemRead(EA, 4)`. -/
def execLw (f : IFields) (s : State) : Result :=
  s.load (.lw f) (s.effectiveAddress f) .word id f.rt

/-- R161 LB: `x[rt]` is the byte at EA, sign-extended. -/
def execLb (f : IFields) (s : State) : Result :=
  s.load (.lb f) (s.effectiveAddress f) .byte sextByte f.rt

/-- R162 LH: `x[rt]` is the halfword at EA, sign-extended. -/
def execLh (f : IFields) (s : State) : Result :=
  s.load (.lh f) (s.effectiveAddress f) .half sextHalf f.rt

/-- R163 SW: `MemWrite(EA, 4, x[rt])`. -/
def execSw (f : IFields) (s : State) : Result :=
  s.store (.sw f) (s.effectiveAddress f) .word (s.reg f.rt)

/-- R164 SB: `MemWrite(EA, 1, x[rt][7:0])`. -/
def execSb (f : IFields) (s : State) : Result :=
  s.store (.sb f) (s.effectiveAddress f) .byte (s.reg f.rt)

/-- R165 SH: `MemWrite(EA, 2, x[rt][15:0])`. -/
def execSh (f : IFields) (s : State) : Result :=
  s.store (.sh f) (s.effectiveAddress f) .half (s.reg f.rt)

end Sys2Proof.Machine
end

