-- ==== Sys2Proof/Machine/MulDiv.lean ====
section
/-! DEFINITION. Multiply, divide and the HI/LO moves (44_muldiv_hilo.md R150 to R157). -/

namespace Sys2Proof.Machine

/-- The low word of an exact 64-bit product goes to LO, the high word to HI (R150, R151). -/
def State.writeProduct (s : State) (p : BitVec 64) : State :=
  s.writeHiLo (p.extractLsb' 32 32) (p.extractLsb' 0 32)

/-- DIV or DIVU by zero: the fault DivideByZero, with every register unchanged (60_exceptions.md R192). -/
def State.divideByZero (s : State) (i : Instr) : State := s.raise .divideByZero (some (encode i)) none

/-- R150 MULT: the exact signed product, split over HI and LO. -/
def execMult (f : RFields) (s : State) : Result :=
  .next (s.writeProduct (BitVec.ofInt 64 ((s.reg f.rs).toInt * (s.reg f.rt).toInt)))

/-- R151 MULTU: the exact unsigned product, split over HI and LO. -/
def execMultu (f : RFields) (s : State) : Result :=
  .next (s.writeProduct (BitVec.ofNat 64 ((s.reg f.rs).toNat * (s.reg f.rt).toNat)))

/-- R152 DIV: LO is the signed quotient rounded toward zero, HI the remainder, which takes the dividend's sign,
both modulo 2^32. A zero divisor raises DivideByZero; 0x80000000 / 0xFFFFFFFF wraps or is refused, as
`DIV_OVERFLOW_RESULT` says. -/
def execDiv (f : RFields) (s : State) : Result :=
  if s.reg f.rt = 0#32 then .next (s.divideByZero (.div f))
  else if s.config.divOverflow = .refuse ∧ s.reg f.rs = 0x80000000#32 ∧ s.reg f.rt = 0xFFFFFFFF#32 then
    .refused .divOverflow
  else
    .next (s.writeHiLo (BitVec.ofInt 32 ((s.reg f.rs).toInt.tmod (s.reg f.rt).toInt))
      (BitVec.ofInt 32 ((s.reg f.rs).toInt.tdiv (s.reg f.rt).toInt)))

/-- R153 DIVU: LO is the unsigned floor quotient, HI the remainder; a zero divisor raises DivideByZero. -/
def execDivu (f : RFields) (s : State) : Result :=
  if s.reg f.rt = 0#32 then .next (s.divideByZero (.divu f))
  else
    .next (s.writeHiLo (BitVec.ofNat 32 ((s.reg f.rs).toNat % (s.reg f.rt).toNat))
      (BitVec.ofNat 32 ((s.reg f.rs).toNat / (s.reg f.rt).toNat)))

/-- R154 MFHI: `x[rd] <- HI`. -/
def execMfhi (f : RFields) (s : State) : Result :=
  .next (s.writeBack f.rd (s.hi))

/-- R155 MFLO: `x[rd] <- LO`. -/
def execMflo (f : RFields) (s : State) : Result :=
  .next (s.writeBack f.rd (s.lo))

/-- R156 MTHI: `HI <- x[rs]`; LO unchanged. -/
def execMthi (f : RFields) (s : State) : Result :=
  .next (s.writeHiLo (s.reg f.rs) s.lo)

/-- R157 MTLO: `LO <- x[rs]`; HI unchanged. -/
def execMtlo (f : RFields) (s : State) : Result :=
  .next (s.writeHiLo s.hi (s.reg f.rs))

end Sys2Proof.Machine
end

