-- ==== Sys2Proof/Machine/Shifts.lean ====
section
/-! DEFINITION. Shifts (43_shifts.md R139 to R142). -/

namespace Sys2Proof.Machine

/-- R140 SLL: `x[rd] <- x[rt] << shamt`; the source register by R139. -/
def execSll (f : RFields) (s : State) : Result :=
  .next (s.writeBack f.rd (s.shiftOperand f <<< f.shamt))

/-- R141 SRL: `x[rd] <- x[rt] >>u shamt`; the source register by R139. -/
def execSrl (f : RFields) (s : State) : Result :=
  .next (s.writeBack f.rd (s.shiftOperand f >>> f.shamt))

/-- R142 SRA: `x[rd] <- x[rt] >>s shamt`; the source register by R139. -/
def execSra (f : RFields) (s : State) : Result :=
  .next (s.writeBack f.rd ((s.shiftOperand f).sshiftRight' f.shamt))

end Sys2Proof.Machine
end

