-- ==== Sys2Proof/Machine/System.lean ====
section
/-! DEFINITION. The halt instruction (47_system.md R185). -/

namespace Sys2Proof.Machine

/-- The halt condition of SYSCALL, by `SYSCALL_HALT_CONDITION` (R185). -/
def State.syscallHalts (s : State) : Bool :=
  match s.config.syscallHalt with
  | .always => true
  | .v0Equals10 => s.reg 2#5 == exitService

/-- R185 SYSCALL: commits with the default PC advance, then halts when its condition holds, and is otherwise a
no-op. -/
def execSyscall (f : RFields) (s : State) : Result :=
  if s.syscallHalts then .next (s.advance.halt s.pc (encode (.syscall f)))
  else .next s.advance

end Sys2Proof.Machine
end

