-- ==== Sys2Proof/Machine/Dispatch.lean ====
section
/-! DEFINITION. Dispatch: `execute(d)` runs the rule the mnemonic tag of `d` names, and nothing else
(40_execution_cycle.md R108). -/

namespace Sys2Proof.Machine

/-- One instruction, from the start of its step to its commit or fault (R101, R108). -/
def exec (i : Instr) (s : State) : Host.Outcome State Fault Refusal :=
  match i with
  | .sll f => Sys2Proof.Machine.execSll f s
  | .srl f => Sys2Proof.Machine.execSrl f s
  | .sra f => Sys2Proof.Machine.execSra f s
  | .jr f => Sys2Proof.Machine.execJr f s
  | .jalr f => Sys2Proof.Machine.execJalr f s
  | .syscall f => Sys2Proof.Machine.execSyscall f s
  | .mfhi f => Sys2Proof.Machine.execMfhi f s
  | .mthi f => Sys2Proof.Machine.execMthi f s
  | .mflo f => Sys2Proof.Machine.execMflo f s
  | .mtlo f => Sys2Proof.Machine.execMtlo f s
  | .mult f => Sys2Proof.Machine.execMult f s
  | .multu f => Sys2Proof.Machine.execMultu f s
  | .div f => Sys2Proof.Machine.execDiv f s
  | .divu f => Sys2Proof.Machine.execDivu f s
  | .add f => Sys2Proof.Machine.execAdd f s
  | .addu f => Sys2Proof.Machine.execAddu f s
  | .sub f => Sys2Proof.Machine.execSub f s
  | .subu f => Sys2Proof.Machine.execSubu f s
  | .and f => Sys2Proof.Machine.execAnd f s
  | .or f => Sys2Proof.Machine.execOr f s
  | .xor f => Sys2Proof.Machine.execXor f s
  | .nor f => Sys2Proof.Machine.execNor f s
  | .slt f => Sys2Proof.Machine.execSlt f s
  | .beq f => Sys2Proof.Machine.execBeq f s
  | .bne f => Sys2Proof.Machine.execBne f s
  | .blez f => Sys2Proof.Machine.execBlez f s
  | .bgtz f => Sys2Proof.Machine.execBgtz f s
  | .addi f => Sys2Proof.Machine.execAddi f s
  | .addiu f => Sys2Proof.Machine.execAddiu f s
  | .slti f => Sys2Proof.Machine.execSlti f s
  | .andi f => Sys2Proof.Machine.execAndi f s
  | .ori f => Sys2Proof.Machine.execOri f s
  | .xori f => Sys2Proof.Machine.execXori f s
  | .lui f => Sys2Proof.Machine.execLui f s
  | .lb f => Sys2Proof.Machine.execLb f s
  | .lh f => Sys2Proof.Machine.execLh f s
  | .lw f => Sys2Proof.Machine.execLw f s
  | .sb f => Sys2Proof.Machine.execSb f s
  | .sh f => Sys2Proof.Machine.execSh f s
  | .sw f => Sys2Proof.Machine.execSw f s
  | .bltz f => Sys2Proof.Machine.execBltz f s
  | .bgez f => Sys2Proof.Machine.execBgez f s
  | .j f => Sys2Proof.Machine.execJ f s
  | .jal f => Sys2Proof.Machine.execJal f s

end Sys2Proof.Machine
end

