-- ==== Sys2Proof/Machine/Fetch.lean ====
section
/-! DEFINITION. The front of a step: the run flag, the fetch and the decode (40_execution_cycle.md R101), and
placing a word where the fetch reads. -/

namespace Sys2Proof.Machine

/-- What the front of a step comes to. -/
inductive Fetched where
  | stop (s : State)      -- the step ends here, in this state
  | execute (i : Instr)   -- the instruction the step executes
deriving DecidableEq, Repr

/-- Fetch and decode (R101): a HALTED machine changes nothing (R100); a misaligned fetch raises
AlignmentViolation before decoding (20_memory.md R61), then an unmapped word raises DecodeFault (R107,
60_exceptions.md R191). -/
def State.fetchDecode (s : State) : Fetched :=
  match s.run with
  | .halted => .stop s
  | .running =>
    if s.refusesAccess s.pc .word then .stop (s.raise .alignmentViolation none (some s.pc))
    else
      match decode (s.memRead s.pc .word) with
      | .instr i => .execute i
      | .reject _ => .stop (s.raise .decodeFault (some (s.memRead s.pc .word)) none)

/-- Store a word at the current PC, as the program loader would (20_memory.md R71). -/
def State.placeWord (s : State) (w : Word) : State := s.memWrite s.pc .word w

end Sys2Proof.Machine
end

