-- ==== Sys2Proof/Machine/Step.lean ====
section
/-! DEFINITION. One step of the Step Controller (40_execution_cycle.md R101), and the placing of the next
instruction. -/

namespace Sys2Proof.Machine

/-- `step()` (R101); `exec` carries out the part from `next <- current` to the commit or fault (DEDUCED, log
entry 3). -/
def step (s : State) : Host.Outcome State Fault Refusal :=
  match s.fetchDecode with
  | .stop t => .next t
  | .execute i => exec i s

/-- The state with the word of an opcode-table row at the current PC, the bits above `nbits` zero. For a RUNNING
state whose PC is aligned and inside a segment, as after reset, the next step runs exactly that word; it
stands for the program loader's `loadWord` (70_reset_and_hazards.md R214; DESIGN CHOICE, log entry 4). -/
def State.withFetchWord (s : State) (nbits w : Nat) : State :=
  s.placeWord (BitVec.ofNat 32 (w % 2 ^ nbits))

end Sys2Proof.Machine
end

