-- ==== Sys2Proof/Machine/Controller.lean ====
section
/-! DEFINITION. The host interface of the Step Controller (60_exceptions.md R202): runs, reset, stop, setters
and the program loader. Every command acts between steps. -/

namespace Sys2Proof.Machine

/-- `run(n)`: up to `n` steps, or until HALTED (40_execution_cycle.md R110). -/
def State.runSteps : Nat → State → Result
  | 0, s => .next s
  | n + 1, s =>
    match s.run with
    | .halted => .next s
    | .running =>
      match step s with
      | .next t => t.runSteps n
      | .fault r => .fault r
      | .refused r => .refused r

/-- `loadWord(address, value)` is `MemWrite(address, 4, value)`, with the same out-of-range and alignment
behaviour (20_memory.md R71; the fault is DEDUCED, log entry 6). -/
def State.loadWord (s : State) (a v : Word) : Result :=
  if s.refusesAccess a .word then .fault (.loadWordMisaligned a) else .next (s.memWrite a .word v)

/-- Word `k` of the program image goes to `TEXT_BASE + 4k`; a word whose address falls past the end of TEXT is
dropped (70_reset_and_hazards.md R214; DEDUCED, log entry 8). -/
def State.loadImageFrom (s : State) (k : Nat) : List Word → State
  | [] => s
  | w :: ws =>
    let t := if 4 * k < s.config.segments.text.size
      then s.memWrite (s.config.textBase + BitVec.ofNat 32 (4 * k)) .word w else s
    t.loadImageFrom (k + 1) ws

/-- The state of a machine after reset and program loading (70_reset_and_hazards.md R210, R211). -/
def State.afterReset (c : Config) : State := (State.initial c).loadImageFrom 0 c.image

/-- The host's stop: HALTED with reason UserStop, and nothing else changes (R202), in whatever state it comes
(DEDUCED, log entry 7). -/
def State.stop (s : State) : State :=
  { s with
    run := .halted
    report := some { reason := .userStop, pc := s.pc, word := none, addr := none } }

/-- The host's GPR setter writes both copies; a write to GPR 0 is discarded (R202). -/
def State.overrideReg (s : State) (r : Reg) (v : Word) : State :=
  { s with current := s.current.setReg r v, next := s.next.setReg r v }

/-- The host's HI setter writes both copies (R202). -/
def State.overrideHi (s : State) (v : Word) : State :=
  { s with current := { s.current with hi := v }, next := { s.next with hi := v } }

/-- The host's LO setter writes both copies (R202). -/
def State.overrideLo (s : State) (v : Word) : State :=
  { s with current := { s.current with lo := v }, next := { s.next with lo := v } }

/-- The commands by which the host changes the block (R202). `runToCompletion()` is unbounded (R111) and is
the relation `State.RunsToCompletion` (DESIGN CHOICE, log entry 12); the accessors change nothing and are the state's own fields. -/
inductive Command where
  | step
  | run (n : Nat)
  | reset
  | stop
  | setReg (r : Reg) (v : Word)
  | setHi (v : Word)
  | setLo (v : Word)
  | loadWord (a v : Word)
deriving DecidableEq, Repr

/-- What a host command does (R202). -/
def State.command (s : State) : Command → Result
  | .step => Sys2Proof.Machine.step s
  | .run n => s.runSteps n
  | .reset => .next (State.afterReset s.config)
  | .stop => .next s.stop
  | .setReg r v => .next (s.overrideReg r v)
  | .setHi v => .next (s.overrideHi v)
  | .setLo v => .next (s.overrideLo v)
  | .loadWord a v => s.loadWord a v

end Sys2Proof.Machine
end

