-- ==== Sys2Proof/WellFormed.lean ====
section
/-! DEFINITION. Well-formed instructions and configurations. Every field bound of 30_encoding.md R82 holds by
its type; what is left to check is the `rt` field that selects BLTZ and BGEZ (R87), and the three
conditions 20_memory.md R51 puts on the segment map. -/

namespace Sys2Proof

/-- The `rt` value that selects BLTZ (R87). -/
def rtBltz : Reg := 0x00#5

/-- The `rt` value that selects BGEZ (R87). -/
def rtBgez : Reg := 0x01#5

/-- The record of BLTZ holds `rt = 0x00` and that of BGEZ `rt = 0x01` (R87); no other record is limited
(log entry 15). -/
def Instr.wf : Instr → Bool
  | .bltz f => f.rt == rtBltz
  | .bgez f => f.rt == rtBgez
  | .sll _ | .srl _ | .sra _ | .jr _ | .jalr _ | .syscall _ | .mfhi _ | .mthi _ | .mflo _ | .mtlo _
  | .mult _ | .multu _ | .div _ | .divu _ | .add _ | .addu _ | .sub _ | .subu _ | .and _ | .or _
  | .xor _ | .nor _ | .slt _ | .beq _ | .bne _ | .blez _ | .bgtz _ | .addi _ | .addiu _ | .slti _
  | .andi _ | .ori _ | .xori _ | .lui _ | .lb _ | .lh _ | .lw _ | .sb _ | .sh _ | .sw _ | .j _
  | .jal _ => true

/-- R51 (b) and (c) for one segment: base and size are multiples of 4 and the range ends inside the space. -/
def Segment.wf (g : Segment) : Bool :=
  g.base.toNat % 4 == 0 && g.size % 4 == 0 && decide (g.base.toNat + g.size ≤ 2 ^ 32)

/-- R51 (a) for two segments: no address lies in both ranges (an empty range meets none). -/
def Segment.disjoint (g h : Segment) : Bool :=
  g.size == 0 || h.size == 0 || decide (g.base.toNat + g.size ≤ h.base.toNat)
    || decide (h.base.toNat + h.size ≤ g.base.toNat)

/-- The conditions of R51 on `SEGMENT_MAP`. -/
def SegmentMap.wf (m : SegmentMap) : Bool :=
  m.text.wf && m.data.wf && m.ktext.wf && m.kdata.wf
    && m.text.disjoint m.data && m.text.disjoint m.ktext && m.text.disjoint m.kdata
    && m.data.disjoint m.ktext && m.data.disjoint m.kdata && m.ktext.disjoint m.kdata

/-- A configuration the spec allows: its segment map meets R51. -/
def Config.wf (c : Config) : Bool := c.segments.wf

end Sys2Proof
end

