-- ==== Sys2Proof/Safety.lean ====
section
/-! DEFINITION. The terms that claims are stated in: the invariant of every state between steps, what it is for
an instruction to complete or to raise a fault, the end of a run, and the spec's own tables of rows,
destinations and sources. -/

namespace Sys2Proof

/-! ### The opcode table, row by row -/

/-- One row of spec/opcode_table.json: its mask, its match and the record it makes of a word. -/
structure OpcodeRow where
  mask : Word
  bits : Word
  make : Word → Instr

/-- An R-format row (R85). -/
def OpcodeRow.ofR (bits : Word) (mk : RFields → Instr) : OpcodeRow :=
  { mask := 0xFC00003F#32, bits := bits, make := fun w => mk (rFieldsOf w) }
/-- An I-format row (R86). -/
def OpcodeRow.ofI (bits : Word) (mk : IFields → Instr) : OpcodeRow :=
  { mask := 0xFC000000#32, bits := bits, make := fun w => mk (iFieldsOf w) }
/-- A row of the I-format opcode 0x01 (R87). -/
def OpcodeRow.ofRegimm (bits : Word) (mk : IFields → Instr) : OpcodeRow :=
  { mask := 0xFC1F0000#32, bits := bits, make := fun w => mk (iFieldsOf w) }
/-- A J-format row (R88). -/
def OpcodeRow.ofJ (bits : Word) (mk : JFields → Instr) : OpcodeRow :=
  { mask := 0xFC000000#32, bits := bits, make := fun w => mk (jFieldsOf w) }

/-- The 44 rows, with the masks and matches that spec/opcode_table.json gives. -/
def opcodeRows : List OpcodeRow :=
  [ .ofR 0x00000000#32 .sll, .ofR 0x00000002#32 .srl, .ofR 0x00000003#32 .sra, .ofR 0x00000008#32 .jr,
    .ofR 0x00000009#32 .jalr, .ofR 0x0000000C#32 .syscall, .ofR 0x00000010#32 .mfhi, .ofR 0x00000011#32 .mthi,
    .ofR 0x00000012#32 .mflo, .ofR 0x00000013#32 .mtlo, .ofR 0x00000018#32 .mult, .ofR 0x00000019#32 .multu ]
  ++
  [ .ofR 0x0000001A#32 .div, .ofR 0x0000001B#32 .divu, .ofR 0x00000020#32 .add, .ofR 0x00000021#32 .addu,
    .ofR 0x00000022#32 .sub, .ofR 0x00000023#32 .subu, .ofR 0x00000024#32 .and, .ofR 0x00000025#32 .or,
    .ofR 0x00000026#32 .xor, .ofR 0x00000027#32 .nor, .ofR 0x0000002A#32 .slt ]
  ++
  [ .ofI 0x10000000#32 .beq, .ofI 0x14000000#32 .bne, .ofI 0x18000000#32 .blez, .ofI 0x1C000000#32 .bgtz,
    .ofI 0x20000000#32 .addi, .ofI 0x24000000#32 .addiu, .ofI 0x28000000#32 .slti, .ofI 0x30000000#32 .andi,
    .ofI 0x34000000#32 .ori, .ofI 0x38000000#32 .xori, .ofI 0x3C000000#32 .lui ]
  ++
  [ .ofI 0x80000000#32 .lb, .ofI 0x84000000#32 .lh, .ofI 0x8C000000#32 .lw, .ofI 0xA0000000#32 .sb,
    .ofI 0xA4000000#32 .sh, .ofI 0xAC000000#32 .sw, .ofRegimm 0x04000000#32 .bltz,
    .ofRegimm 0x04010000#32 .bgez, .ofJ 0x08000000#32 .j, .ofJ 0x0C000000#32 .jal ]

/-- Whether a word matches a row. -/
def OpcodeRow.hits (row : OpcodeRow) (w : Word) : Prop := w &&& row.mask = row.bits

/-! ### Tables of the spec about instructions -/

/-- The format of an instruction's record (R81, R83). -/
def Instr.format : Instr → Format
  | .sll _ | .srl _ | .sra _ | .jr _ | .jalr _ | .syscall _ | .mfhi _ | .mthi _ | .mflo _ | .mtlo _
  | .mult _ | .multu _ | .div _ | .divu _ | .add _ | .addu _ | .sub _ | .subu _ | .and _ | .or _
  | .xor _ | .nor _ | .slt _ => .r
  | .beq _ | .bne _ | .blez _ | .bgtz _ | .addi _ | .addiu _ | .slti _ | .andi _ | .ori _ | .xori _
  | .lui _ | .lb _ | .lh _ | .lw _ | .sb _ | .sh _ | .sw _ | .bltz _ | .bgez _ => .i
  | .j _ | .jal _ => .j

/-- The general register an instruction writes, if it writes one (10_state.md R26). -/
def Instr.gprWritten : Instr → Option Reg
  | .add f | .addu f | .sub f | .subu f | .and f | .or f | .xor f | .nor f | .slt f | .sll f | .srl f
  | .sra f | .mfhi f | .mflo f | .jalr f => some f.rd
  | .addi f | .addiu f | .andi f | .ori f | .xori f | .slti f | .lui f | .lw f | .lb f | .lh f => some f.rt
  | .jal _ => some 31#5
  | .mult _ | .multu _ | .div _ | .divu _ | .mthi _ | .mtlo _ | .jr _ | .syscall _ => none
  | .sw _ | .sb _ | .sh _ | .beq _ | .bne _ | .blez _ | .bgtz _ | .bltz _ | .bgez _ => none
  | .j _ => none

/-- The general registers an instruction reads (10_state.md R27), with SHIFT_SOURCE deciding for the shifts
(43_shifts.md R139). -/
def Instr.gprsRead (c : Config) : Instr → List Reg
  | .add f | .addu f | .sub f | .subu f | .and f | .or f | .xor f | .nor f | .slt f | .mult f | .multu f
  | .div f | .divu f => [f.rs, f.rt]
  | .beq f | .bne f | .sw f | .sb f | .sh f => [f.rs, f.rt]
  | .addi f | .addiu f | .andi f | .ori f | .xori f | .slti f | .lw f | .lb f | .lh f | .blez f | .bgtz f
  | .bltz f | .bgez f => [f.rs]
  | .jr f | .jalr f | .mthi f | .mtlo f => [f.rs]
  | .sll f | .srl f | .sra f => match c.shiftSource with
    | .rt => [f.rt]
    | .rs => [f.rs]
  | .lui _ | .j _ | .jal _ | .mfhi _ | .mflo _ => []
  | .syscall _ => [2#5]

/-- The instructions that may write the PC otherwise than by the default advance (R103). -/
def Instr.isControlFlow : Instr → Bool
  | .beq _ | .bne _ | .blez _ | .bgtz _ | .bltz _ | .bgez _ | .j _ | .jal _ | .jr _ | .jalr _ => true
  | .sll _ | .srl _ | .sra _ | .syscall _ | .mfhi _ | .mthi _ | .mflo _ | .mtlo _ | .mult _ | .multu _
  | .div _ | .divu _ | .add _ | .addu _ | .sub _ | .subu _ | .and _ | .or _ | .xor _ | .nor _ | .slt _
  | .addi _ | .addiu _ | .slti _ | .andi _ | .ori _ | .xori _ | .lui _ | .lb _ | .lh _ | .lw _ | .sb _
  | .sh _ | .sw _ => false

namespace Machine

/-- The width of the data access a load or store makes (R62). -/
def accessSize : Instr → Option Size
  | .lw _ | .sw _ => some .word
  | .lh _ | .sh _ => some .half
  | .lb _ | .sb _ => some .byte
  | .sll _ | .srl _ | .sra _ | .jr _ | .jalr _ | .syscall _ | .mfhi _ | .mthi _ | .mflo _ | .mtlo _
  | .mult _ | .multu _ | .div _ | .divu _ | .add _ | .addu _ | .sub _ | .subu _ | .and _ | .or _
  | .xor _ | .nor _ | .slt _ | .beq _ | .bne _ | .blez _ | .bgtz _ | .addi _ | .addiu _ | .slti _
  | .andi _ | .ori _ | .xori _ | .lui _ | .bltz _ | .bgez _ | .j _ | .jal _ => none

/-- The codes of the halt reasons (R190). -/
def HaltReason.code : HaltReason → Nat
  | .halt => 1
  | .userStop => 2
  | .decodeFault => 3
  | .divideByZero => 4
  | .alignmentViolation => 5

/-- The reasons that are faults (R190); the others are the clean end and the host's stop. -/
def HaltReason.isFault : HaltReason → Bool
  | .halt | .userStop => false
  | .decodeFault | .divideByZero | .alignmentViolation => true

/-! ### The invariant of every state between steps -/

/-- What a halt report records (R35, R190), for a machine halted at `pc`: SYSCALL commits before it halts, so its
report names the instruction before `pc`; every other reason leaves the PC at the address reported. -/
def HaltReport.Wf (r : HaltReport) (c : Config) (pc : Word) : Prop :=
  match r.reason with
  | .halt => (∃ f, r.word = some (encode (.syscall f))) ∧ r.addr = none ∧ pc = r.pc + 4#32
  | .userStop => r.word = none ∧ r.addr = none ∧ pc = r.pc
  | .decodeFault => (∃ w e, r.word = some w ∧ decode w = .reject e) ∧ r.addr = none ∧ pc = r.pc
  | .divideByZero =>
    (∃ f, r.word = some (encode (.div f)) ∨ r.word = some (encode (.divu f))) ∧ r.addr = none ∧ pc = r.pc
  | .alignmentViolation =>
    c.misalignedPolicy = .refuse ∧ pc = r.pc ∧
      ((r.word = none ∧ r.addr = some r.pc ∧ r.pc.toNat % 4 ≠ 0) ∨
        ∃ i n a, accessSize i = some n ∧ r.word = some (encode i) ∧ r.addr = some a ∧ a.toNat % n.bytes ≠ 0)

/-- The invariant: the configuration meets R51, the two copies agree (R22), register 0 holds 0 (R24), memory is in
its canonical form and lists only addresses of segments (R50), and the halt report is empty exactly while
RUNNING and otherwise records what R35 says. -/
structure State.Inv (s : State) : Prop where
  config_wf     : s.config.wf = true
  copies_agree  : s.next = s.current
  zero_register : s.current.regs[0] = 0#32
  mem_wf        : Memory.wf s.mem
  mem_mapped    : ∀ c ∈ s.mem, s.config.mapped (BitVec.ofNat 32 c.1) = true
  report_none   : s.run = .running ↔ s.report = none
  report_wf     : ∀ r, s.report = some r → r.Wf s.config s.pc

/-! ### What an instruction does -/

/-- What a program can see of the machine after an instruction. -/
structure Effect where
  pc   : Word
  reg  : Reg → Word
  hi   : Word
  lo   : Word
  byte : Word → Byte

/-- The effect of an instruction that only advances the PC (R103). -/
def State.unchanged (s : State) : Effect where
  pc   := s.pc + 4#32
  reg  := s.reg
  hi   := s.hi
  lo   := s.lo
  byte := s.loadByte

/-- The general registers with `v` in register `r`; a write to register 0 is discarded (R24). -/
def State.regWith (s : State) (r : Reg) (v : Word) : Reg → Word :=
  fun q => if q = r ∧ q ≠ 0#5 then v else s.reg q

/-- The bytes of memory with the low `n` bytes of `v` at `a`, the least significant first, in the addresses
that lie in segments (R53, R57, R59). -/
def State.bytesWith (s : State) (a : Word) (n : Nat) (v : Word) : Word → Byte :=
  fun b =>
    if (b - a).toNat < n ∧ s.config.mapped b = true then v.extractLsb' (8 * (b - a).toNat) 8 else s.loadByte b

/-- The instruction commits with the given effect and no other: the counter goes up by one, the two copies agree,
register 0 holds 0, and the run flag, halt report and configuration are unchanged. -/
def Completes (i : Instr) (s : State) (e : Effect) : Prop :=
  ∃ t, exec i s = .next t ∧ t.pc = e.pc ∧ (∀ r, t.reg r = e.reg r) ∧ t.hi = e.hi ∧ t.lo = e.lo ∧
    (∀ a, t.loadByte a = e.byte a) ∧ t.current.regs[0] = 0#32 ∧ t.next = t.current ∧
    t.count = s.count + 1 ∧ t.run = s.run ∧ t.report = s.report ∧ t.config = s.config

/-- A result that is a fault of R106: nothing is committed, the machine is HALTED, and the report is as given. -/
def IsRaised (out : Result) (s : State) (r : HaltReport) : Prop :=
  ∃ t, out = .next t ∧ t.current = s.current ∧ t.next = s.current ∧ t.mem = s.mem ∧ t.count = s.count ∧
    t.config = s.config ∧ t.run = .halted ∧ t.report = some r

/-- The access is performed: it is aligned, or the policy does not refuse misaligned accesses (R56). -/
def State.Performs (s : State) (a : Word) (n : Size) : Prop :=
  s.config.misalignedPolicy = .refuse → a.toNat % n.bytes = 0

/-- The word at the PC, assembled from its bytes (R53, R61). -/
def State.wordAtPc (s : State) : Word :=
  wordOfBytes (s.loadByte s.pc) (s.loadByte (s.pc + 1#32)) (s.loadByte (s.pc + 2#32)) (s.loadByte (s.pc + 3#32))

/-! ### The end of a run -/

/-- `runToCompletion()` ends in `t`: the first HALTED state of the run (R111, R112). -/
def State.RunsToCompletion (s t : State) : Prop := ∃ n, s.runSteps n = .next t ∧ t.run = .halted

/-- A run that ended without a fault (R112, R190). -/
def State.EndsCleanly (t : State) : Prop :=
  t.run = .halted ∧ ∀ r, t.report = some r → r.reason.isFault = false

/-- An outcome without the raw word of its halt report: what R91 says does not depend on ignored fields. -/
def withoutReportWord : Result → Result
  | .next t => .next { t with report := t.report.map fun r => { r with word := none } }
  | .fault e => .fault e
  | .refused e => .refused e

end Machine

end Sys2Proof
end

