-- ==== Sys2Proof/Certificates/Slice0/Obligations.lean ====
section
/-! DEFINITION. The statements of this model for the provers. `Completes`, `IsRaised` and the other terms are
those of Sys2Proof/Safety.lean. -/

open Sys2Proof Sys2Proof.Machine

/-- R120 to R123. ADD, ADDU, SUB and SUBU write rd and nothing else. -/
def Obligations.AddAndSubtractWriteRd : Prop :=
  ∀ (s : State) (f : RFields),
    (encode (.add f) &&& 0xFC00003F#32 = 0x00000020#32 ∧
      Completes (.add f) s { s.unchanged with reg := s.regWith f.rd (s.reg f.rs + s.reg f.rt) }) ∧
    (encode (.addu f) &&& 0xFC00003F#32 = 0x00000021#32 ∧
      Completes (.addu f) s { s.unchanged with reg := s.regWith f.rd (s.reg f.rs + s.reg f.rt) }) ∧
    (encode (.sub f) &&& 0xFC00003F#32 = 0x00000022#32 ∧
      Completes (.sub f) s { s.unchanged with reg := s.regWith f.rd (s.reg f.rs - s.reg f.rt) }) ∧
    (encode (.subu f) &&& 0xFC00003F#32 = 0x00000023#32 ∧
      Completes (.subu f) s { s.unchanged with reg := s.regWith f.rd (s.reg f.rs - s.reg f.rt) })

/-- R124 to R127. AND, OR, XOR and NOR write rd and nothing else. -/
def Obligations.LogicalOperationsWriteRd : Prop :=
  ∀ (s : State) (f : RFields),
    (encode (.and f) &&& 0xFC00003F#32 = 0x00000024#32 ∧
      Completes (.and f) s { s.unchanged with reg := s.regWith f.rd (s.reg f.rs &&& s.reg f.rt) }) ∧
    (encode (.or f) &&& 0xFC00003F#32 = 0x00000025#32 ∧
      Completes (.or f) s { s.unchanged with reg := s.regWith f.rd (s.reg f.rs ||| s.reg f.rt) }) ∧
    (encode (.xor f) &&& 0xFC00003F#32 = 0x00000026#32 ∧
      Completes (.xor f) s { s.unchanged with reg := s.regWith f.rd (s.reg f.rs ^^^ s.reg f.rt) }) ∧
    (encode (.nor f) &&& 0xFC00003F#32 = 0x00000027#32 ∧
      Completes (.nor f) s { s.unchanged with reg := s.regWith f.rd (~~~(s.reg f.rs ||| s.reg f.rt)) })

/-- R128, R132. SLT and SLTI compare signed register contents. -/
def Obligations.SetOnLessComparesContents : Prop :=
  (∀ (s : State) (f : RFields),
    encode (.slt f) &&& 0xFC00003F#32 = 0x0000002A#32 ∧
      Completes (.slt f) s { s.unchanged with reg := s.regWith f.rd (if (s.reg f.rs).toInt < (s.reg f.rt).toInt then 1#32 else 0#32) }) ∧
  ∀ (s : State) (f : IFields),
    encode (.slti f) &&& 0xFC000000#32 = 0x28000000#32 ∧
      Completes (.slti f) s { s.unchanged with reg := s.regWith f.rt (if (s.reg f.rs).toInt < f.imm.toInt then 1#32 else 0#32) }

/-- R130, R131. ADDI and ADDIU add the sign-extended immediate. -/
def Obligations.AddImmediateSignExtends : Prop :=
  ∀ (s : State) (f : IFields),
    (encode (.addi f) &&& 0xFC000000#32 = 0x20000000#32 ∧
      Completes (.addi f) s { s.unchanged with reg := s.regWith f.rt (s.reg f.rs + BitVec.ofInt 32 f.imm.toInt) }) ∧
    (encode (.addiu f) &&& 0xFC000000#32 = 0x24000000#32 ∧
      Completes (.addiu f) s { s.unchanged with reg := s.regWith f.rt (s.reg f.rs + BitVec.ofInt 32 f.imm.toInt) })

/-- R133 to R136. ANDI, ORI, XORI zero-extend and LUI loads the upper half. -/
def Obligations.LogicalImmediateZeroExtends : Prop :=
  ∀ (s : State) (f : IFields),
    (encode (.andi f) &&& 0xFC000000#32 = 0x30000000#32 ∧
      Completes (.andi f) s { s.unchanged with reg := s.regWith f.rt (s.reg f.rs &&& (0#16 ++ f.imm : Word)) }) ∧
    (encode (.ori f) &&& 0xFC000000#32 = 0x34000000#32 ∧
      Completes (.ori f) s { s.unchanged with reg := s.regWith f.rt (s.reg f.rs ||| (0#16 ++ f.imm : Word)) }) ∧
    (encode (.xori f) &&& 0xFC000000#32 = 0x38000000#32 ∧
      Completes (.xori f) s { s.unchanged with reg := s.regWith f.rt (s.reg f.rs ^^^ (0#16 ++ f.imm : Word)) }) ∧
    (encode (.lui f) &&& 0xFC000000#32 = 0x3C000000#32 ∧
      Completes (.lui f) s { s.unchanged with reg := s.regWith f.rt (f.imm.setWidth 32 <<< 16) })

/-- R139 to R142. The alternative SHIFT_SOURCE is the one R139 describes. SLL, SRL and SRA shift the register
SHIFT_SOURCE names. -/
def Obligations.ShiftsShiftTheSourceRegister : Prop :=
  ∀ (s : State) (f : RFields) (v : Word),
    (s.config.shiftSource = .rt → v = s.reg f.rt) → (s.config.shiftSource = .rs → v = s.reg f.rs) →
    (encode (.sll f) &&& 0xFC00003F#32 = 0x00000000#32 ∧
      Completes (.sll f) s { s.unchanged with reg := s.regWith f.rd (BitVec.ofNat 32 (v.toNat * 2 ^ f.shamt.toNat)) }) ∧
    (encode (.srl f) &&& 0xFC00003F#32 = 0x00000002#32 ∧
      Completes (.srl f) s { s.unchanged with reg := s.regWith f.rd (BitVec.ofNat 32 (v.toNat / 2 ^ f.shamt.toNat)) }) ∧
    (encode (.sra f) &&& 0xFC00003F#32 = 0x00000003#32 ∧
      Completes (.sra f) s { s.unchanged with reg := s.regWith f.rd (BitVec.ofInt 32 (v.toInt / 2 ^ f.shamt.toNat)) })

/-- R150, R151. MULT and MULTU split the exact 64-bit product over HI and LO. -/
def Obligations.MultiplySplitsTheExactProduct : Prop :=
  ∀ (s : State) (f : RFields),
    (encode (.mult f) &&& 0xFC00003F#32 = 0x00000018#32 ∧
      ∃ hi lo : Word, (hi ++ lo : BitVec 64).toInt = (s.reg f.rs).toInt * (s.reg f.rt).toInt ∧
        Completes (.mult f) s { s.unchanged with hi := hi, lo := lo }) ∧
    (encode (.multu f) &&& 0xFC00003F#32 = 0x00000019#32 ∧
      ∃ hi lo : Word, (hi ++ lo : BitVec 64).toNat = (s.reg f.rs).toNat * (s.reg f.rt).toNat ∧
        Completes (.multu f) s { s.unchanged with hi := hi, lo := lo })

/-- R152, with both values of DIV_OVERFLOW_RESULT. DIV writes the truncated quotient and the remainder with the
dividend sign. -/
def Obligations.SignedDivideTruncates : Prop :=
  ∀ (s : State) (f : RFields),
    (encode (.div f) &&& 0xFC00003F#32 = 0x0000001A#32) ∧
    (s.reg f.rt = 0#32 → IsRaised (exec (.div f) s) s
      { reason := .divideByZero, pc := s.pc, word := some (encode (.div f)), addr := none }) ∧
    (s.reg f.rs = 0x80000000#32 ∧ s.reg f.rt = 0xFFFFFFFF#32 →
      (s.config.divOverflow = .wrap → Completes (.div f) s { s.unchanged with hi := 0#32, lo := 0x80000000#32 }) ∧
      (s.config.divOverflow = .refuse → exec (.div f) s = .refused .divOverflow)) ∧
    (s.reg f.rt ≠ 0#32 → ¬(s.reg f.rs = 0x80000000#32 ∧ s.reg f.rt = 0xFFFFFFFF#32) →
      ∃ q r : Word, (s.reg f.rs).toInt = q.toInt * (s.reg f.rt).toInt + r.toInt ∧
        r.toInt.natAbs < (s.reg f.rt).toInt.natAbs ∧
        (r.toInt = 0 ∨ r.toInt.sign = (s.reg f.rs).toInt.sign) ∧
        Completes (.div f) s { s.unchanged with hi := r, lo := q })

/-- R153. DIVU writes the unsigned quotient and remainder. -/
def Obligations.UnsignedDivideFloors : Prop :=
  ∀ (s : State) (f : RFields),
    (encode (.divu f) &&& 0xFC00003F#32 = 0x0000001B#32) ∧
    (s.reg f.rt = 0#32 → IsRaised (exec (.divu f) s) s
      { reason := .divideByZero, pc := s.pc, word := some (encode (.divu f)), addr := none }) ∧
    (s.reg f.rt ≠ 0#32 →
      ∃ q r : Word, (s.reg f.rs).toNat = q.toNat * (s.reg f.rt).toNat + r.toNat ∧
        r.toNat < (s.reg f.rt).toNat ∧ Completes (.divu f) s { s.unchanged with hi := r, lo := q })

/-- R154 to R157. MFHI, MFLO, MTHI and MTLO move between a register and HI or LO. -/
def Obligations.HiLoMovesCopyOneRegister : Prop :=
  ∀ (s : State) (f : RFields),
    (encode (.mfhi f) &&& 0xFC00003F#32 = 0x00000010#32 ∧
      Completes (.mfhi f) s { s.unchanged with reg := s.regWith f.rd (s.hi) }) ∧
    (encode (.mflo f) &&& 0xFC00003F#32 = 0x00000012#32 ∧
      Completes (.mflo f) s { s.unchanged with reg := s.regWith f.rd (s.lo) }) ∧
    (encode (.mthi f) &&& 0xFC00003F#32 = 0x00000011#32 ∧
      Completes (.mthi f) s { s.unchanged with hi := s.reg f.rs }) ∧
    (encode (.mtlo f) &&& 0xFC00003F#32 = 0x00000013#32 ∧
      Completes (.mtlo f) s { s.unchanged with lo := s.reg f.rs })

/-- R158. The effective address is base plus signed displacement, and the base register is not modified. -/
def Obligations.EffectiveAddressAddsDisplacement : Prop :=
  ∀ (s : State) (f : IFields),
    (s.config.eaBaseMode = .absolute → s.effectiveAddress f = s.reg f.rs + BitVec.ofInt 32 f.imm.toInt) ∧
    (s.config.eaBaseMode = .dataRelative →
      s.effectiveAddress f = s.config.segments.data.base + s.reg f.rs + BitVec.ofInt 32 f.imm.toInt) ∧
    ∀ (i : Instr) (t : State), (i = .lw f ∨ i = .lb f ∨ i = .lh f ∨ i = .sw f ∨ i = .sb f ∨ i = .sh f) →
      exec i s = .next t → i.gprWritten ≠ some f.rs → t.reg f.rs = s.reg f.rs

/-- R160 to R162; the misaligned forms are MisalignedDataAccessFaults. LW, LB and LH load little-endian bytes
and sign-extend the narrow forms. -/
def Obligations.LoadsReadAndExtend : Prop :=
  ∀ (s : State) (f : IFields),
    (encode (.lw f) &&& 0xFC000000#32 = 0x8C000000#32 ∧
      (s.Performs (s.effectiveAddress f) .word → Completes (.lw f) s
        { s.unchanged with reg := s.regWith f.rt ((s.loadByte (s.effectiveAddress f + 3#32) ++ s.loadByte (s.effectiveAddress f + 2#32) ++ s.loadByte (s.effectiveAddress f + 1#32) ++ s.loadByte (s.effectiveAddress f) : Word)) })) ∧
    (encode (.lb f) &&& 0xFC000000#32 = 0x80000000#32 ∧
      Completes (.lb f) s { s.unchanged with reg := s.regWith f.rt ((s.loadByte (s.effectiveAddress f)).signExtend 32) }) ∧
    (encode (.lh f) &&& 0xFC000000#32 = 0x84000000#32 ∧
      (s.Performs (s.effectiveAddress f) .half → Completes (.lh f) s
        { s.unchanged with reg := s.regWith f.rt ((s.loadByte (s.effectiveAddress f + 1#32) ++ s.loadByte (s.effectiveAddress f) : BitVec 16).signExtend 32) }))

/-- R163 to R165; the misaligned forms are MisalignedDataAccessFaults. SW, SB and SH store the low bytes of rt
and nothing else. -/
def Obligations.StoresWriteTheirBytes : Prop :=
  ∀ (s : State) (f : IFields), Memory.wf s.mem →
    (encode (.sw f) &&& 0xFC000000#32 = 0xAC000000#32 ∧
      (s.Performs (s.effectiveAddress f) .word → Completes (.sw f) s { s.unchanged with byte := s.bytesWith (s.effectiveAddress f) 4 (s.reg f.rt) })) ∧
    (encode (.sb f) &&& 0xFC000000#32 = 0xA0000000#32 ∧
      Completes (.sb f) s { s.unchanged with byte := s.bytesWith (s.effectiveAddress f) 1 (s.reg f.rt) }) ∧
    (encode (.sh f) &&& 0xFC000000#32 = 0xA4000000#32 ∧
      (s.Performs (s.effectiveAddress f) .half → Completes (.sh f) s { s.unchanged with byte := s.bytesWith (s.effectiveAddress f) 2 (s.reg f.rt) }))

/-- R55, R56, R194. A refused misaligned LW, SW, LH or SH raises AlignmentViolation. -/
def Obligations.MisalignedDataAccessFaults : Prop :=
  ∀ (s : State) (f : IFields),
    (¬s.Performs (s.effectiveAddress f) .word → IsRaised (exec (.lw f) s) s
      { reason := .alignmentViolation, pc := s.pc, word := some (encode (.lw f)), addr := some (s.effectiveAddress f) }) ∧
    (¬s.Performs (s.effectiveAddress f) .word → IsRaised (exec (.sw f) s) s
      { reason := .alignmentViolation, pc := s.pc, word := some (encode (.sw f)), addr := some (s.effectiveAddress f) }) ∧
    (¬s.Performs (s.effectiveAddress f) .half → IsRaised (exec (.lh f) s) s
      { reason := .alignmentViolation, pc := s.pc, word := some (encode (.lh f)), addr := some (s.effectiveAddress f) }) ∧
    (¬s.Performs (s.effectiveAddress f) .half → IsRaised (exec (.sh f) s) s
      { reason := .alignmentViolation, pc := s.pc, word := some (encode (.sh f)), addr := some (s.effectiveAddress f) })

/-- R166, R170, R171. BEQ and BNE go to the branch target exactly when their condition holds. -/
def Obligations.TwoRegisterBranchesSelectTheTarget : Prop :=
  ∀ (s : State) (f : IFields),
    (encode (.beq f) &&& 0xFC000000#32 = 0x10000000#32 ∧
      Completes (.beq f) s { s.unchanged with pc := if s.reg f.rs = s.reg f.rt then s.pc + 4#32 + BitVec.ofInt 32 (f.imm.toInt * 4) else s.pc + 4#32 }) ∧
    (encode (.bne f) &&& 0xFC000000#32 = 0x14000000#32 ∧
      Completes (.bne f) s { s.unchanged with pc := if s.reg f.rs ≠ s.reg f.rt then s.pc + 4#32 + BitVec.ofInt 32 (f.imm.toInt * 4) else s.pc + 4#32 })

/-- R166, R172 to R175; BLTZ and BGEZ are the records that R87 selects by rt. BLEZ, BGTZ, BLTZ and BGEZ branch
on the signed value of rs. -/
def Obligations.SignBranchesSelectTheTarget : Prop :=
  ∀ (s : State) (f : IFields),
    (encode (.blez f) &&& 0xFC000000#32 = 0x18000000#32 ∧
      Completes (.blez f) s { s.unchanged with pc := if (s.reg f.rs).toInt ≤ 0 then s.pc + 4#32 + BitVec.ofInt 32 (f.imm.toInt * 4) else s.pc + 4#32 }) ∧
    (encode (.bgtz f) &&& 0xFC000000#32 = 0x1C000000#32 ∧
      Completes (.bgtz f) s { s.unchanged with pc := if (s.reg f.rs).toInt > 0 then s.pc + 4#32 + BitVec.ofInt 32 (f.imm.toInt * 4) else s.pc + 4#32 }) ∧
    (f.rt = 0x00#5 → encode (.bltz f) &&& 0xFC1F0000#32 = 0x04000000#32 ∧
      Completes (.bltz f) s { s.unchanged with pc := if (s.reg f.rs).toInt < 0 then s.pc + 4#32 + BitVec.ofInt 32 (f.imm.toInt * 4) else s.pc + 4#32 }) ∧
    (f.rt = 0x01#5 → encode (.bgez f) &&& 0xFC1F0000#32 = 0x04010000#32 ∧
      Completes (.bgez f) s { s.unchanged with pc := if (s.reg f.rs).toInt ≥ 0 then s.pc + 4#32 + BitVec.ofInt 32 (f.imm.toInt * 4) else s.pc + 4#32 })

/-- R169, R176, R177. J and JAL go to the reconstructed target, and JAL links pc + 8 in register 31. -/
def Obligations.JumpsReachTheirTargets : Prop :=
  ∀ (s : State) (f : JFields),
    (encode (.j f) &&& 0xFC000000#32 = 0x08000000#32 ∧
      Completes (.j f) s { s.unchanged with pc := (s.pc.extractLsb' 28 4 ++ f.target ++ 0#2 : Word) }) ∧
    (encode (.jal f) &&& 0xFC000000#32 = 0x0C000000#32 ∧
      Completes (.jal f) s
        { s.unchanged with pc := (s.pc.extractLsb' 28 4 ++ f.target ++ 0#2 : Word), reg := s.regWith 31#5 (s.pc + 8#32) })

/-- R179, R180. JR and JALR go to the pre-instruction x[rs], and JALR links pc + 8 in rd. -/
def Obligations.RegisterJumpsReadTheOldValue : Prop :=
  ∀ (s : State) (f : RFields),
    (encode (.jr f) &&& 0xFC00003F#32 = 0x00000008#32 ∧
      Completes (.jr f) s { s.unchanged with pc := s.reg f.rs }) ∧
    (encode (.jalr f) &&& 0xFC00003F#32 = 0x00000009#32 ∧
      Completes (.jalr f) s { s.unchanged with pc := s.reg f.rs, reg := s.regWith f.rd (s.pc + 8#32) })

/-- R185. SYSCALL halts after its commit when its condition holds and is otherwise a no-op. -/
def Obligations.SyscallHaltsOnItsCondition : Prop :=
  ∀ (s : State) (f : RFields),
    (encode (.syscall f) &&& 0xFC00003F#32 = 0x0000000C#32) ∧
    (s.config.syscallHalt = .always ∨ s.reg 2#5 = 0x0000000A#32 →
      ∃ t, exec (.syscall f) s = .next t ∧ t.pc = s.pc + 4#32 ∧ (∀ r, t.reg r = s.reg r) ∧ t.hi = s.hi ∧
        t.lo = s.lo ∧ t.mem = s.mem ∧ t.next = t.current ∧ t.config = s.config ∧ t.count = s.count + 1 ∧
        t.run = .halted ∧
        t.report = some { reason := .halt, pc := s.pc, word := some (encode (.syscall f)), addr := none }) ∧
    (s.config.syscallHalt = .v0Equals10 → s.reg 2#5 ≠ 0x0000000A#32 → Completes (.syscall f) s s.unchanged)

/-- The round trip over R82 to R88 and R93. Decoding the encoding of a well-formed instruction gives it back. -/
def Obligations.DecodeReadsTheWellFormedEncoding : Prop :=
  ∀ i : Instr, i.wf = true → decode (encode i) = .instr i

/-- R83: a record carries exactly the fields its format possesses. Encoding a decoded instruction gives back the
raw word. -/
def Obligations.EncodeRestoresTheDecodedWord : Prop :=
  ∀ (w : Word) (i : Instr), decode w = .instr i → encode i = w ∧ i.wf = true

/-- R85 to R88. A word that matches a row of the opcode table decodes to that row. -/
def Obligations.DecodeFollowsTheOpcodeRows : Prop :=
  ∀ row ∈ opcodeRows, ∀ w : Word, row.hits w → decode w = .instr (row.make w)

/-- R90, R191. Exactly the words that match no row are rejected, and fetching one raises DecodeFault. -/
def Obligations.UnmappedWordsRaiseDecodeFault : Prop :=
  (∀ w : Word, (∃ r, decode w = .reject r) ↔ ∀ row ∈ opcodeRows, ¬row.hits w) ∧
  ∀ s : State, s.run = .running → s.Performs s.pc .word → (∀ row ∈ opcodeRows, ¬row.hits s.wordAtPc) →
    IsRaised (step s) s { reason := .decodeFault, pc := s.pc, word := some s.wordAtPc, addr := none }

/-- R108: every decoded mnemonic has exactly one rule and there is no fall-through. No word matches two rows of
the opcode table. -/
def Obligations.OpcodeRowsDoNotOverlap : Prop :=
  opcodeRows.Pairwise fun a b => ∀ w : Word, ¬(a.hits w ∧ b.hits w)

/-- R81, R83. Format classification looks only at the opcode and agrees with the record. -/
def Obligations.FormatFollowsTheOpcodeAlone : Prop :=
  ∀ w : Word,
    (formatOf w = .r ↔ w.toNat / 2 ^ 26 = 0) ∧
    (formatOf w = .j ↔ w.toNat / 2 ^ 26 = 2 ∨ w.toNat / 2 ^ 26 = 3) ∧
    (formatOf w = .i ↔ w.toNat / 2 ^ 26 ≠ 0 ∧ w.toNat / 2 ^ 26 ≠ 2 ∧ w.toNat / 2 ^ 26 ≠ 3) ∧
    ∀ i, decode w = .instr i → i.format = formatOf w

/-- Words of 95_test_vectors.md, from R82 and R85 to R88. A few words written out from the encoding tables
decode as they should. -/
def Obligations.WrittenOutWordsDecode : Prop :=
  decode 0x01095020#32 = .instr (.add { rs := 8#5, rt := 9#5, rd := 10#5, shamt := 0#5 }) ∧
  decode 0x2022FFFF#32 = .instr (.addi { rs := 1#5, rt := 2#5, imm := 0xFFFF#16 }) ∧
  decode 0x000117C3#32 = .instr (.sra { rs := 0#5, rt := 1#5, rd := 2#5, shamt := 31#5 }) ∧
  decode 0x0043001A#32 = .instr (.div { rs := 2#5, rt := 3#5, rd := 0#5, shamt := 0#5 }) ∧
  decode 0xA4220002#32 = .instr (.sh { rs := 1#5, rt := 2#5, imm := 2#16 }) ∧
  decode 0x04810004#32 = .instr (.bgez { rs := 4#5, rt := 1#5, imm := 4#16 }) ∧
  decode 0x0C100040#32 = .instr (.jal { target := 0x0100040#26 }) ∧
  decode 0x0000000C#32 = .instr (.syscall { rs := 0#5, rt := 0#5, rd := 0#5, shamt := 0#5 }) ∧
  decode 0x0000000D#32 = .reject .unmappedFunct ∧ decode 0x2C000000#32 = .reject .unmappedOpcode

/-- R91. A field an instruction does not read never changes what it does. -/
def Obligations.IgnoredFieldsHaveNoEffect : Prop :=
  ∀ s : State,
    (∀ mk ∈ ([Instr.add, Instr.addu, Instr.sub, Instr.subu, Instr.and, Instr.or, Instr.xor, Instr.nor, Instr.slt] : List (RFields → Instr)), ∀ f g : RFields, f.rs = g.rs → f.rt = g.rt → f.rd = g.rd →
      withoutReportWord (exec (mk f) s) = withoutReportWord (exec (mk g) s)) ∧
    (s.config.shiftSource = .rt → ∀ mk ∈ ([Instr.sll, Instr.srl, Instr.sra] : List (RFields → Instr)), ∀ f g : RFields, f.rt = g.rt → f.rd = g.rd → f.shamt = g.shamt →
      withoutReportWord (exec (mk f) s) = withoutReportWord (exec (mk g) s)) ∧
    (∀ mk ∈ ([Instr.jr, Instr.mthi, Instr.mtlo] : List (RFields → Instr)), ∀ f g : RFields, f.rs = g.rs →
      withoutReportWord (exec (mk f) s) = withoutReportWord (exec (mk g) s)) ∧
    (∀ mk ∈ ([Instr.jalr] : List (RFields → Instr)), ∀ f g : RFields, f.rs = g.rs → f.rd = g.rd →
      withoutReportWord (exec (mk f) s) = withoutReportWord (exec (mk g) s)) ∧
    (∀ mk ∈ ([Instr.mfhi, Instr.mflo] : List (RFields → Instr)), ∀ f g : RFields, f.rd = g.rd →
      withoutReportWord (exec (mk f) s) = withoutReportWord (exec (mk g) s)) ∧
    (∀ mk ∈ ([Instr.mult, Instr.multu, Instr.div, Instr.divu] : List (RFields → Instr)), ∀ f g : RFields, f.rs = g.rs → f.rt = g.rt →
      withoutReportWord (exec (mk f) s) = withoutReportWord (exec (mk g) s)) ∧
    (∀ mk ∈ ([Instr.lui] : List (IFields → Instr)), ∀ f g : IFields, f.rt = g.rt → f.imm = g.imm →
      withoutReportWord (exec (mk f) s) = withoutReportWord (exec (mk g) s)) ∧
    (∀ mk ∈ ([Instr.blez, Instr.bgtz] : List (IFields → Instr)), ∀ f g : IFields, f.rs = g.rs → f.imm = g.imm →
      withoutReportWord (exec (mk f) s) = withoutReportWord (exec (mk g) s)) ∧
    (∀ f g : RFields, withoutReportWord (exec (.syscall f) s) = withoutReportWord (exec (.syscall g) s))

/-- R101, R102, R108; that the raw word is encode i is DEDUCED (assumption 9). A RUNNING step runs exec of the
instruction decoded at the PC, whose raw word is the word there. -/
def Obligations.StepExecutesTheDecodedInstruction : Prop :=
  ∀ (s : State) (i : Instr), s.run = .running → s.Performs s.pc .word → decode s.wordAtPc = .instr i →
    step s = exec i s ∧ encode i = s.wordAtPc

/-- R100, R207. A step requested while HALTED changes nothing. -/
def Obligations.HaltedMachineChangesNothing : Prop :=
  ∀ s : State, s.run = .halted → step s = .next s ∧ ∀ n, s.runSteps n = .next s

/-- R61, R107. A refused misaligned fetch raises AlignmentViolation whatever word lies there. -/
def Obligations.MisalignedFetchFaultsBeforeDecoding : Prop :=
  ∀ s : State, s.run = .running → s.config.misalignedPolicy = .refuse → s.pc.toNat % 4 ≠ 0 →
    IsRaised (step s) s { reason := .alignmentViolation, pc := s.pc, word := none, addr := some s.pc }

/-- R61, R92, R216. A fetch from an address in no segment executes as a no-op. -/
def Obligations.FetchOutsideSegmentsIsNoOp : Prop :=
  ∀ s : State, s.config.wf = true → s.run = .running → s.pc.toNat % 4 = 0 → s.config.mapped s.pc = false →
    ∃ t, step s = .next t ∧ t.pc = s.pc + 4#32 ∧ (∀ r, t.reg r = s.reg r) ∧ t.hi = s.hi ∧ t.lo = s.lo ∧
      t.mem = s.mem ∧ t.run = .running ∧ t.count = s.count + 1 ∧ t.report = s.report

/-- R106, R195. After a fault current, memory and counter are as before and the report names the instruction. -/
def Obligations.FaultingStepsCommitNothing : Prop :=
  ∀ (s t : State) (r : HaltReport), s.run = .running → step s = .next t → t.run = .halted →
    t.report = some r → r.reason.isFault = true →
    t.current = s.current ∧ t.next = t.current ∧ t.mem = s.mem ∧ t.count = s.count ∧ r.pc = s.pc ∧
      (s.Performs s.pc .word → r.word = some s.wordAtPc) ∧ (¬s.Performs s.pc .word → r.word = none)

/-- R33, R34, R105; the condition of SYSCALL is that of R185. The machine halts exactly for SYSCALL, a fault or
a user stop, runs again only by reset, and counts exactly the committed steps. -/
def Obligations.StepsHaltOnlyForTheirReasons : Prop :=
  (∀ s t : State, s.run = .running → step s = .next t →
    (t.run = .running ∧ t.report = s.report ∧ t.count = s.count + 1) ∨
    (t.run = .halted ∧ ∃ r, t.report = some r ∧ r.pc = s.pc ∧
      ((r.reason = .halt ∧ t.count = s.count + 1 ∧ t.pc = s.pc + 4#32 ∧
          ∃ f, decode s.wordAtPc = .instr (.syscall f) ∧ r.word = some (encode (.syscall f))) ∨
        ((r.reason = .decodeFault ∨ r.reason = .divideByZero ∨ r.reason = .alignmentViolation) ∧ t.count = s.count)))) ∧
  (∀ s : State, s.run = .running →
    (¬s.Performs s.pc .word ∨ (∃ e, decode s.wordAtPc = .reject e) ∨
      ∃ i, decode s.wordAtPc = .instr i ∧
        ((∃ f, (i = .div f ∨ i = .divu f) ∧ s.reg f.rt = 0#32) ∨
          (∃ f n, (i = .lw f ∨ i = .lh f ∨ i = .sw f ∨ i = .sh f) ∧ accessSize i = some n ∧
            ¬s.Performs (s.effectiveAddress f) n) ∨
          ∃ f, i = .syscall f ∧ (s.config.syscallHalt = .always ∨ s.reg 2#5 = 0x0000000A#32))) →
    ∃ t, step s = .next t ∧ t.run = .halted) ∧
  (∀ (s t : State) (c : Command), s.command c = .next t →
    (c = .stop → t.run = .halted) ∧ (s.run = .halted → t.run = .running → c = .reset)) ∧
  ∀ (s t : State) (n : Nat), step s = .next t → ∃ c, step { s with count := n } = .next { t with count := c }

/-- R22, R24, R33, R35, R50, R190. Every step keeps the invariant of the states between steps. -/
def Obligations.EveryStepKeepsTheInvariant : Prop :=
  ∀ s t : State, s.Inv → step s = .next t → t.Inv

/-- R22, R24, R33, R35, R50, R190. Executing any instruction on a RUNNING machine keeps the invariant. -/
def Obligations.EveryInstructionKeepsTheInvariant : Prop :=
  ∀ (i : Instr) (s t : State), s.Inv → s.run = .running → exec i s = .next t → t.Inv

/-- R36, R210. That State.reset has the default parameters and an empty image is the model's choice (assumption
2). The state after reset, under the default parameters and an empty image (assumption 2), meets the invariant.
-/
def Obligations.ResetMeetsTheInvariant : Prop :=
  State.reset.Inv

/-- R36, R210, R211, R214. The default parameters of State.reset are the model's choice (assumption 2), and an
image word past the end of TEXT is dropped even where another segment adjoins (DEDUCED, assumption 8). Reset
zeroes registers and memory, loads the image and starts RUNNING at TEXT_BASE. -/
def Obligations.ResetLeavesTheStatedValues : Prop :=
  (∀ c : Config, c.wf = true →
    (∀ r, (State.afterReset c).reg r = 0#32) ∧ (State.afterReset c).hi = 0#32 ∧ (State.afterReset c).lo = 0#32 ∧
    (State.afterReset c).pc = c.textBase ∧ (State.afterReset c).next = (State.afterReset c).current ∧
    (State.afterReset c).run = .running ∧ (State.afterReset c).count = 0 ∧ (State.afterReset c).report = none ∧
    (State.afterReset c).config = c ∧
    ∀ a : Word, (State.afterReset c).loadByte a =
      if c.textBase.toNat ≤ a.toNat ∧ a.toNat < c.textBase.toNat + c.segments.text.size then
        ((c.image.getD ((a.toNat - c.textBase.toNat) / 4) 0#32).extractLsb' (8 * ((a.toNat - c.textBase.toNat) % 4)) 8)
      else 0#8) ∧
  State.afterReset Config.default = State.reset ∧
  ∀ s : State, s.command .reset = .next (State.afterReset s.config)

/-- Model convention over R71 and R214 (assumption 4). A word placed at an aligned PC inside a segment is what
the next step runs. -/
def Obligations.PlacedWordIsTheNextInstruction : Prop :=
  ∀ (s : State) (w : Nat) (i : Instr), s.Inv → s.run = .running → s.pc.toNat % 4 = 0 →
    s.config.mapped s.pc = true → decode (BitVec.ofNat 32 w) = .instr i →
    step (s.withFetchWord 32 w) = exec i (s.withFetchWord 32 w)

/-- R110. run(n) takes up to n steps, stops at HALTED, and composes. -/
def Obligations.RunsStopAtTheFirstHalt : Prop :=
  ∀ s : State, s.runSteps 0 = .next s ∧ (∀ n, s.run = .halted → s.runSteps n = .next s) ∧
    (∀ n t, s.run = .running → step s = .next t → s.runSteps (n + 1) = t.runSteps n) ∧
    ∀ m n t, s.runSteps m = .next t → s.runSteps (m + n) = t.runSteps n

/-- R112; that runToCompletion is a relation is the model's choice (assumption 12). runToCompletion ends in at
most one state, and more steps do not move it. -/
def Obligations.CompletedRunsHaveOneEnd : Prop :=
  ∀ s t u : State, s.RunsToCompletion t → s.RunsToCompletion u → t = u ∧ ∀ n, t.runSteps n = .next t

/-- R33, R199, R207. No host command but reset makes a HALTED machine RUNNING. -/
def Obligations.OnlyResetLeavesHalted : Prop :=
  ∀ (s t : State) (c : Command), s.run = .halted → s.command c = .next t →
    (c ≠ .reset → t.run = .halted) ∧ (c = .reset → t.run = .running ∧ t.count = 0 ∧ t.report = none)

/-- R202. Every host command keeps the invariant of the states between steps. -/
def Obligations.HostCommandsKeepTheInvariant : Prop :=
  ∀ (s t : State) (c : Command), s.Inv → s.command c = .next t → t.Inv

/-- R71, R202. The fault that a refused loadWord answers (assumption 6), and that a stop of a machine HALTED
already rewrites its report (assumption 7), are the model's choice, both DEDUCED. The host stop, setters and
loadWord change what they name and nothing else. -/
def Obligations.HostCommandsDoWhatTheyName : Prop :=
  ∀ s : State,
    (∃ t, s.command .stop = .next t ∧ t.run = .halted ∧
      t.report = some { reason := .userStop, pc := s.pc, word := none, addr := none } ∧ t.current = s.current ∧
      t.next = s.next ∧ t.mem = s.mem ∧ t.count = s.count ∧ t.config = s.config) ∧
    (∀ r v, ∃ t, s.command (.setReg r v) = .next t ∧ (∀ q, t.reg q = s.regWith r v q) ∧
      (s.next = s.current → t.next = t.current) ∧ t.pc = s.pc ∧ t.hi = s.hi ∧ t.lo = s.lo ∧ t.mem = s.mem ∧
      t.run = s.run ∧ t.count = s.count ∧ t.report = s.report ∧ t.config = s.config) ∧
    (∀ v, ∃ t, s.command (.setHi v) = .next t ∧ t.hi = v ∧ t.lo = s.lo ∧ (∀ q, t.reg q = s.reg q) ∧
      (s.next = s.current → t.next = t.current) ∧ t.pc = s.pc ∧ t.mem = s.mem ∧ t.run = s.run ∧
      t.count = s.count ∧ t.report = s.report ∧ t.config = s.config) ∧
    (∀ v, ∃ t, s.command (.setLo v) = .next t ∧ t.lo = v ∧ t.hi = s.hi ∧ (∀ q, t.reg q = s.reg q) ∧
      (s.next = s.current → t.next = t.current) ∧ t.pc = s.pc ∧ t.mem = s.mem ∧ t.run = s.run ∧
      t.count = s.count ∧ t.report = s.report ∧ t.config = s.config) ∧
    (∀ a v, Memory.wf s.mem → s.Performs a .word → ∃ t, s.command (.loadWord a v) = .next t ∧
      (∀ b, t.loadByte b = s.bytesWith a 4 v b) ∧ t.current = s.current ∧ t.next = s.next ∧ t.run = s.run ∧
      t.count = s.count ∧ t.report = s.report ∧ t.config = s.config) ∧
    ∀ a v, ¬s.Performs a .word → s.command (.loadWord a v) = .fault (.loadWordMisaligned a)

/-- R26, R24. An instruction writes no general register but the one R26 names. -/
def Obligations.OnlyTheDestinationRegisterChanges : Prop :=
  ∀ (i : Instr) (s t : State), exec i s = .next t →
    (∀ r, i.gprWritten ≠ some r → t.reg r = s.reg r) ∧ t.reg 0#5 = 0#32

/-- R27 under the default parameters; that the shifts read rs and not rt under SHIFT_SOURCE = rs (R139) is
DEDUCED (assumption 14). What an instruction does depends on no general register but its sources. -/
def Obligations.OnlyTheSourceRegistersAreRead : Prop :=
  ∀ (i : Instr) (s : State) (regs : Vector Word 32),
    let u : State := { s with current := { s.current with regs := regs } }
    (∀ r ∈ i.gprsRead s.config, u.reg r = s.reg r) →
    (∀ e, exec i s = .refused e ↔ exec i u = .refused e) ∧ (∀ e, exec i s = .fault e ↔ exec i u = .fault e) ∧
    ∀ t v, exec i s = .next t → exec i u = .next v →
      v.pc = t.pc ∧ v.hi = t.hi ∧ v.lo = t.lo ∧ v.mem = t.mem ∧ v.run = t.run ∧ v.count = t.count ∧
      v.report = t.report ∧ v.config = t.config ∧
      (t.count = s.count + 1 → ∀ r, i.gprWritten = some r → v.reg r = t.reg r)

/-- R30. HI and LO are written only by the multiplies, divides and MTHI, MTLO, and read only by MFHI and MFLO.
-/
def Obligations.HiLoBelongToTheirInstructions : Prop :=
  ∀ (i : Instr) (s : State),
    (∀ t, exec i s = .next t →
      (t.hi = s.hi ∨ ∃ f, i = .mult f ∨ i = .multu f ∨ i = .mthi f ∨ (i = .div f ∨ i = .divu f) ∧ s.reg f.rt ≠ 0#32) ∧
      (t.lo = s.lo ∨ ∃ f, i = .mult f ∨ i = .multu f ∨ i = .mtlo f ∨ (i = .div f ∨ i = .divu f) ∧ s.reg f.rt ≠ 0#32)) ∧
    ∀ hi lo : Word, (∀ f, i ≠ .mfhi f ∧ i ≠ .mflo f) →
      let u : State := { s with current := { s.current with hi := hi, lo := lo } }
      ((∃ t, exec i s = .next t) ↔ ∃ v, exec i u = .next v) ∧
      ∀ t v, exec i s = .next t → exec i u = .next v →
        v.pc = t.pc ∧ (∀ r, v.reg r = t.reg r) ∧ v.mem = t.mem ∧ v.run = t.run ∧ v.count = t.count ∧
        v.report = t.report ∧ v.config = t.config ∧
        ((∃ f, i = .mult f ∨ i = .multu f ∨ (i = .div f ∨ i = .divu f) ∧ s.reg f.rt ≠ 0#32) →
          v.hi = t.hi ∧ v.lo = t.lo) ∧
        ((∃ f, i = .mthi f) → v.hi = t.hi) ∧ ((∃ f, i = .mtlo f) → v.lo = t.lo)

/-- R59, R62. Only SW, SB and SH change memory, and only inside the bytes they address. -/
def Obligations.OnlyStoresChangeMemory : Prop :=
  ∀ (i : Instr) (s t : State), exec i s = .next t →
    ((∀ f, i ≠ .sw f ∧ i ≠ .sh f ∧ i ≠ .sb f) → t.mem = s.mem) ∧
    ∀ f n, (i = .sw f ∨ i = .sh f ∨ i = .sb f) → accessSize i = some n →
      ∀ a : Word, n.bytes ≤ (a - s.effectiveAddress f).toNat → t.loadByte a = s.loadByte a

/-- R28, R103. Every committed instruction but a taken branch or a jump advances the PC by 4. -/
def Obligations.CommittedInstructionsAdvanceThePc : Prop :=
  ∀ (i : Instr) (s t : State), exec i s = .next t → t.count = s.count + 1 →
    (i.isControlFlow = false → t.pc = s.pc + 4#32) ∧
    ∀ f, i = .beq f ∨ i = .bne f ∨ i = .blez f ∨ i = .bgtz f ∨ i = .bltz f ∨ i = .bgez f →
      t.pc = s.pc + 4#32 ∨ t.pc = s.pc + 4#32 + BitVec.ofInt 32 (f.imm.toInt * 4)

/-- R29. Only JR and JALR can leave a PC that is no multiple of 4. -/
def Obligations.OnlyRegisterJumpsMisalignThePc : Prop :=
  ∀ (i : Instr) (s t : State), (∀ f, i ≠ .jr f ∧ i ≠ .jalr f) → s.pc.toNat % 4 = 0 → exec i s = .next t →
    t.pc.toNat % 4 = 0

/-- R24, R104. Register 0 reads zero, discards writes, and holds zero after every commit. -/
def Obligations.RegisterZeroStaysZero : Prop :=
  (∀ s : State, s.reg 0#5 = 0#32) ∧
  (∀ (i : Instr) (s t : State), exec i s = .next t → t.count = s.count + 1 →
    t.current.regs[0] = 0#32 ∧ t.next.regs[0] = 0#32) ∧
  ∀ (s : State) (v : Word), (∀ r, (s.writeBack 0#5 v).reg r = s.reg r) ∧ (s.writeBack 0#5 v).pc = s.pc + 4#32 ∧
    (s.writeBack 0#5 v).count = s.count + 1

/-- R108, R152, R190. Every instruction answers a next state but for DIV overflow under the Refuse parameter. -/
def Obligations.OnlyDivOverflowIsRefused : Prop :=
  (∀ (i : Instr) (s : State), (∃ t, exec i s = .next t ∧ t.config = s.config) ∨
    (exec i s = .refused .divOverflow ∧ s.config.divOverflow = .refuse ∧
      ∃ f, i = .div f ∧ s.reg f.rs = 0x80000000#32 ∧ s.reg f.rt = 0xFFFFFFFF#32)) ∧
  ∀ s : State, s.config.divOverflow = .wrap → ∃ t, step s = .next t ∧ t.config = s.config

/-- R51, R52. An address resolves to exactly one segment or to none. -/
def Obligations.AddressesResolveToOneSegment : Prop :=
  ∀ m : SegmentMap, m.wf = true → ∀ a : Word,
    (∀ n, m.seg a = some n ↔
      (m.segment n).base.toNat ≤ a.toNat ∧ a.toNat < (m.segment n).base.toNat + (m.segment n).size) ∧
    (m.seg a = none ↔ ∀ n, ¬((m.segment n).base.toNat ≤ a.toNat ∧
      a.toNat < (m.segment n).base.toNat + (m.segment n).size))

/-- R51, R58. An aligned access that starts in a segment ends in it. -/
def Obligations.AlignedAccessesStayInOneSegment : Prop :=
  ∀ (m : SegmentMap) (n : Size) (a : Word), m.wf = true → a.toNat % n.bytes = 0 →
    ∀ k, k < n.bytes → m.seg (a + BitVec.ofNat 32 k) = m.seg a

/-- R53, R57, R58. An aligned MemRead is 0 outside segments and else the sum of the shifted bytes. -/
def Obligations.AlignedReadsFollowTheFormula : Prop :=
  ∀ (s : State) (n : Size) (a : Word), s.config.wf = true → a.toNat % n.bytes = 0 →
    (s.memRead a n).toNat = if s.config.mapped a = true
      then ((List.range n.bytes).map fun k => (s.mem.read (a.toNat + k)).toNat * 2 ^ (8 * k)).sum else 0

/-- R57, R193. An access in no segment reads 0 and writes nothing. -/
def Obligations.OutOfRangeAccessIsSilent : Prop :=
  ∀ (s : State) (n : Size) (a v : Word), s.config.wf = true → a.toNat % n.bytes = 0 →
    s.config.mapped a = false → s.memRead a n = 0#32 ∧ s.memWrite a n v = s

/-- R53, R54. Byte and halfword reads of a stored word return its bits. -/
def Obligations.MixedWidthReadsSeeTheStoredWord : Prop :=
  ∀ (s : State) (a v : Word), s.Inv → a.toNat % 4 = 0 → s.config.mapped a = true →
    (s.memWrite a .word v).memRead a .word = v ∧
    (∀ k, k < 4 → (s.memWrite a .word v).memRead (a + BitVec.ofNat 32 k) .byte
      = (v.extractLsb' (8 * k) 8).setWidth 32) ∧
    (s.memWrite a .word v).memRead a .half = (v.extractLsb' 0 16).setWidth 32 ∧
    (s.memWrite a .word v).memRead (a + 2#32) .half = (v.extractLsb' 16 16).setWidth 32

/-- R160, R163. SW to an address followed by LW from it yields the stored value, or 0 outside segments. -/
def Obligations.StoreThenLoadGivesTheValue : Prop :=
  ∀ (s t : State) (f g : IFields), s.Inv → (s.effectiveAddress f).toNat % 4 = 0 → exec (.sw f) s = .next t →
    t.effectiveAddress g = s.effectiveAddress f → g.rt ≠ 0#5 →
    ∃ u, exec (.lw g) t = .next u ∧
      u.reg g.rt = if s.config.mapped (s.effectiveAddress f) = true then s.reg f.rt else 0#32

/-- R69. A word stored over the next instruction is the instruction the next step runs. -/
def Obligations.StoredWordIsFetchedNext : Prop :=
  ∀ (s t : State) (f : IFields) (i : Instr), s.Inv → s.run = .running → s.pc.toNat % 4 = 0 →
    s.effectiveAddress f = s.pc + 4#32 → s.config.mapped (s.pc + 4#32) = true →
    decode (s.reg f.rt) = .instr i → exec (.sw f) s = .next t → step t = exec i t

/-- The model's choice (assumption 15) for records that R87 never selects. exec gives a BLTZ or BGEZ record with
another rt the same branch (assumption 15). -/
def Obligations.IllFormedSignBranchesBranchAlike : Prop :=
  ∀ (s : State) (f : IFields),
    (f.rt ≠ 0x00#5 → (∀ w, decode w ≠ .instr (.bltz f)) ∧
      Completes (.bltz f) s { s.unchanged with pc := if (s.reg f.rs).toInt < 0 then s.pc + 4#32 + BitVec.ofInt 32 (f.imm.toInt * 4) else s.pc + 4#32 }) ∧
    (f.rt ≠ 0x01#5 → (∀ w, decode w ≠ .instr (.bgez f)) ∧
      Completes (.bgez f) s { s.unchanged with pc := if (s.reg f.rs).toInt ≥ 0 then s.pc + 4#32 + BitVec.ofInt 32 (f.imm.toInt * 4) else s.pc + 4#32 })
end

