-- ==== Sys2Proof/Laws/Encoding.lean ====
section
/-! SUPPORT. Fields of encoded words, words rebuilt from their fields, and what a row's mask selects
(30_encoding.md R82, R85 to R88). -/

namespace Sys2Proof

/-! ### Fields of a concatenation -/

theorem extractLsb'_append_high {a b : Nat} (x : BitVec a) (y : BitVec b) (k n : Nat) (h : b ≤ k) :
    (x ++ y).extractLsb' k n = x.extractLsb' (k - b) n := by
  ext i hi
  simp only [BitVec.getElem_extractLsb', BitVec.getLsbD_append]
  rw [if_neg (by omega)]
  congr 1; omega

theorem extractLsb'_append_low {a b : Nat} (x : BitVec a) (y : BitVec b) (k n : Nat) (h : k + n ≤ b) :
    (x ++ y).extractLsb' k n = y.extractLsb' k n := by
  ext i hi
  simp only [BitVec.getElem_extractLsb', BitVec.getLsbD_append]
  rw [if_pos (by omega)]

/-- Two neighbouring fields of a word are one field. -/
theorem extractLsb'_join (w : Word) (k m n : Nat) :
    w.extractLsb' (k + n) m ++ w.extractLsb' k n = w.extractLsb' k (m + n) := by
  ext i hi
  simp only [BitVec.getElem_append, BitVec.getElem_extractLsb']
  split
  · rfl
  · congr 1; omega

/-! ### Fields of an encoded word -/

@[simp] theorem opcodeOf_encodeR (k : BitVec 6) (f : RFields) : opcodeOf (encodeR k f) = 0x00#6 := by
  change BitVec.extractLsb' (n := 6 + 5 + 5 + 5 + 5 + 6) _ _ _ = _
  unfold encodeR
  simp (disch := omega) only [extractLsb'_append_high]
  simp

@[simp] theorem rsOf_encodeR (k : BitVec 6) (f : RFields) : rsOf (encodeR k f) = f.rs := by
  change BitVec.extractLsb' (n := 6 + 5 + 5 + 5 + 5 + 6) _ _ _ = _
  unfold encodeR
  simp (disch := omega) only [extractLsb'_append_high, extractLsb'_append_low]
  simp

@[simp] theorem rtOf_encodeR (k : BitVec 6) (f : RFields) : rtOf (encodeR k f) = f.rt := by
  change BitVec.extractLsb' (n := 6 + 5 + 5 + 5 + 5 + 6) _ _ _ = _
  unfold encodeR
  simp (disch := omega) only [extractLsb'_append_high, extractLsb'_append_low]
  simp

@[simp] theorem rdOf_encodeR (k : BitVec 6) (f : RFields) : rdOf (encodeR k f) = f.rd := by
  change BitVec.extractLsb' (n := 6 + 5 + 5 + 5 + 5 + 6) _ _ _ = _
  unfold encodeR
  simp (disch := omega) only [extractLsb'_append_high, extractLsb'_append_low]
  simp

@[simp] theorem shamtOf_encodeR (k : BitVec 6) (f : RFields) : shamtOf (encodeR k f) = f.shamt := by
  change BitVec.extractLsb' (n := 6 + 5 + 5 + 5 + 5 + 6) _ _ _ = _
  unfold encodeR
  simp (disch := omega) only [extractLsb'_append_high, extractLsb'_append_low]
  simp

@[simp] theorem functOf_encodeR (k : BitVec 6) (f : RFields) : functOf (encodeR k f) = k := by
  change BitVec.extractLsb' (n := 6 + 5 + 5 + 5 + 5 + 6) _ _ _ = _
  unfold encodeR
  simp (disch := omega) only [extractLsb'_append_low]
  simp

@[simp] theorem opcodeOf_encodeI (k : BitVec 6) (f : IFields) : opcodeOf (encodeI k f) = k := by
  change BitVec.extractLsb' (n := 6 + 5 + 5 + 16) _ _ _ = _
  unfold encodeI
  simp (disch := omega) only [extractLsb'_append_high]
  simp

@[simp] theorem rsOf_encodeI (k : BitVec 6) (f : IFields) : rsOf (encodeI k f) = f.rs := by
  change BitVec.extractLsb' (n := 6 + 5 + 5 + 16) _ _ _ = _
  unfold encodeI
  simp (disch := omega) only [extractLsb'_append_high, extractLsb'_append_low]
  simp

@[simp] theorem rtOf_encodeI (k : BitVec 6) (f : IFields) : rtOf (encodeI k f) = f.rt := by
  change BitVec.extractLsb' (n := 6 + 5 + 5 + 16) _ _ _ = _
  unfold encodeI
  simp (disch := omega) only [extractLsb'_append_high, extractLsb'_append_low]
  simp

@[simp] theorem immOf_encodeI (k : BitVec 6) (f : IFields) : immOf (encodeI k f) = f.imm := by
  change BitVec.extractLsb' (n := 6 + 5 + 5 + 16) _ _ _ = _
  unfold encodeI
  simp (disch := omega) only [extractLsb'_append_low]
  simp

@[simp] theorem opcodeOf_encodeJ (k : BitVec 6) (f : JFields) : opcodeOf (encodeJ k f) = k := by
  change BitVec.extractLsb' (n := 6 + 26) _ _ _ = _
  unfold encodeJ
  simp (disch := omega) only [extractLsb'_append_high]
  simp

@[simp] theorem targetOf_encodeJ (k : BitVec 6) (f : JFields) : targetOf (encodeJ k f) = f.target := by
  change BitVec.extractLsb' (n := 6 + 26) _ _ _ = _
  unfold encodeJ
  simp (disch := omega) only [extractLsb'_append_low]
  simp

@[simp] theorem rFieldsOf_encodeR (k : BitVec 6) (f : RFields) : rFieldsOf (encodeR k f) = f := by
  simp [rFieldsOf]

@[simp] theorem iFieldsOf_encodeI (k : BitVec 6) (f : IFields) : iFieldsOf (encodeI k f) = f := by
  simp [iFieldsOf]

@[simp] theorem jFieldsOf_encodeJ (k : BitVec 6) (f : JFields) : jFieldsOf (encodeJ k f) = f := by
  simp [jFieldsOf]

/-! ### A word rebuilt from its fields -/

theorem encodeR_fieldsOf (w : Word) (h : opcodeOf w = 0x00#6) : encodeR (functOf w) (rFieldsOf w) = w := by
  have e : ∀ x : BitVec (6 + 5 + 5 + 5 + 5 + 6), x = w.extractLsb' 0 32 → (x : BitVec 32) = w := by
    intro x hx; rw [hx]; exact BitVec.extractLsb'_eq_self
  unfold encodeR rFieldsOf rsOf rtOf rdOf shamtOf functOf
  rw [← h]
  refine e _ ?_
  unfold opcodeOf
  rw [extractLsb'_join w 21 6 5, extractLsb'_join w 16 (6 + 5) 5, extractLsb'_join w 11 (6 + 5 + 5) 5,
    extractLsb'_join w 6 _ 5, extractLsb'_join w 0 _ 6]

theorem encodeI_fieldsOf (w : Word) : encodeI (opcodeOf w) (iFieldsOf w) = w := by
  have e : ∀ x : BitVec (6 + 5 + 5 + 16), x = w.extractLsb' 0 32 → (x : BitVec 32) = w := by
    intro x hx; rw [hx]; exact BitVec.extractLsb'_eq_self
  unfold encodeI iFieldsOf rsOf rtOf immOf opcodeOf
  refine e _ ?_
  rw [extractLsb'_join w 21 6 5, extractLsb'_join w 16 (6 + 5) 5, extractLsb'_join w 0 _ 16]

theorem encodeJ_fieldsOf (w : Word) : encodeJ (opcodeOf w) (jFieldsOf w) = w := by
  have e : ∀ x : BitVec (6 + 26), x = w.extractLsb' 0 32 → (x : BitVec 32) = w := by
    intro x hx; rw [hx]; exact BitVec.extractLsb'_eq_self
  unfold encodeJ jFieldsOf targetOf opcodeOf
  refine e _ ?_
  rw [extractLsb'_join w 0 6 26]

/-! ### What the masks of the opcode table select -/

/-- The mask of R85 keeps the opcode and the funct. -/
theorem and_maskR (w : Word) (h : opcodeOf w = 0x00#6) :
    w &&& 0xFC00003F#32 = encodeR (functOf w) { rs := 0, rt := 0, rd := 0, shamt := 0 } := by
  have ho : opcodeOf (w &&& 0xFC00003F#32) = 0x00#6 := by
    simp only [opcodeOf, BitVec.extractLsb'_and] at h ⊢
    rw [h]; decide
  have hf : functOf (w &&& 0xFC00003F#32) = functOf w := by
    simp only [functOf, BitVec.extractLsb'_and]
    exact BitVec.and_allOnes
  rw [← encodeR_fieldsOf _ ho, hf]
  congr 1
  simp only [rFieldsOf, rsOf, rtOf, rdOf, shamtOf, BitVec.extractLsb'_and, RFields.mk.injEq]
  refine ⟨?_, ?_, ?_, ?_⟩ <;> exact BitVec.and_zero

/-- A word matches an R-format row exactly when its opcode is 0 and its funct is the row's (R85). -/
theorem maskR_iff (w : Word) (k : BitVec 6) :
    w &&& 0xFC00003F#32 = encodeR k { rs := 0, rt := 0, rd := 0, shamt := 0 }
      ↔ opcodeOf w = 0x00#6 ∧ functOf w = k := by
  constructor
  · intro h
    have ho := congrArg opcodeOf h
    have hf := congrArg functOf h
    simp only [opcodeOf_encodeR, functOf_encodeR] at ho hf
    simp only [opcodeOf, functOf, BitVec.extractLsb'_and] at ho hf ⊢
    exact ⟨BitVec.and_allOnes.symm.trans ho, BitVec.and_allOnes.symm.trans hf⟩
  · rintro ⟨ho, rfl⟩
    exact and_maskR w ho

/-- The mask of R86 and R88 keeps the opcode. -/
theorem and_maskI (w : Word) :
    w &&& 0xFC000000#32 = encodeI (opcodeOf w) { rs := 0, rt := 0, imm := 0 } := by
  have ho : opcodeOf (w &&& 0xFC000000#32) = opcodeOf w := by
    simp only [opcodeOf, BitVec.extractLsb'_and]
    exact BitVec.and_allOnes
  rw [← encodeI_fieldsOf (w &&& 0xFC000000#32), ho]
  congr 1
  simp only [iFieldsOf, rsOf, rtOf, immOf, BitVec.extractLsb'_and, IFields.mk.injEq]
  refine ⟨?_, ?_, ?_⟩ <;> exact BitVec.and_zero

/-- A word matches an I-format or J-format row exactly when its opcode is the row's (R86, R88). -/
theorem maskI_iff (w : Word) (k : BitVec 6) :
    w &&& 0xFC000000#32 = encodeI k { rs := 0, rt := 0, imm := 0 } ↔ opcodeOf w = k := by
  rw [and_maskI]
  constructor
  · intro h; simpa using congrArg opcodeOf h
  · rintro rfl; rfl

/-- The mask of R87 keeps the opcode and rt. -/
theorem and_maskRegimm (w : Word) :
    w &&& 0xFC1F0000#32 = encodeI (opcodeOf w) { rs := 0, rt := rtOf w, imm := 0 } := by
  have ho : opcodeOf (w &&& 0xFC1F0000#32) = opcodeOf w := by
    simp only [opcodeOf, BitVec.extractLsb'_and]
    exact BitVec.and_allOnes
  rw [← encodeI_fieldsOf (w &&& 0xFC1F0000#32), ho]
  congr 1
  simp only [iFieldsOf, rsOf, rtOf, immOf, BitVec.extractLsb'_and, IFields.mk.injEq]
  exact ⟨BitVec.and_zero, BitVec.and_allOnes, BitVec.and_zero⟩

/-- A word matches a row of R87 exactly when its opcode and rt are the row's. -/
theorem maskRegimm_iff (w : Word) (k : BitVec 6) (r : Reg) :
    w &&& 0xFC1F0000#32 = encodeI k { rs := 0, rt := r, imm := 0 } ↔ opcodeOf w = k ∧ rtOf w = r := by
  rw [and_maskRegimm]
  constructor
  · intro h; exact ⟨by simpa using congrArg opcodeOf h, by simpa using congrArg rtOf h⟩
  · rintro ⟨rfl, rfl⟩; rfl

/-- The four bytes of a word, in memory order, are the word (20_memory.md R53). -/
theorem decodeBytes_bytesOfWord (w : Word) : decodeBytes (bytesOfWord w) = decode w := by
  have e : ∀ x : BitVec (8 + 8 + 8 + 8), x = w.extractLsb' 0 32 → (x : BitVec 32) = w := by
    intro x hx; rw [hx]; exact BitVec.extractLsb'_eq_self
  have : wordOfBytes (w.extractLsb' 0 8) (w.extractLsb' 8 8) (w.extractLsb' 16 8) (w.extractLsb' 24 8) = w := by
    unfold wordOfBytes
    refine e _ ?_
    rw [extractLsb'_join w 16 8 8, extractLsb'_join w 8 _ 8, extractLsb'_join w 0 _ 8]
  simp [decodeBytes, bytesOfWord, this]

end Sys2Proof
end

