-- ==== Sys2Proof/Laws/Memory.lean ====
section
/-! SUPPORT. The basic laws of the byte store and of the memory primitives: what a read after a write gives, and
that every memory operation keeps the canonical form. -/

namespace Sys2Proof.Machine

/-! ### The backing bytes -/

theorem Memory.read_of_forall_ne {m : Memory} {a : Nat} (h : ∀ c ∈ m, c.1 ≠ a) : Memory.read m a = unlistedByte := by
  induction m with
  | nil => rfl
  | cons c m ih =>
    have hc := h c (by simp)
    simp only [Memory.read, hc, if_false]
    exact ih fun d hd => h d (by simp [hd])

/-- A write leaves every other address alone. -/
theorem Memory.read_write_other (m : Memory) {a k : Nat} (b : Byte) (h : k ≠ a) :
    Memory.read (Memory.write m a b) k = Memory.read m k := by
  induction m with
  | nil => unfold Memory.write; split <;> simp [Memory.read, Ne.symm h]
  | cons c m ih =>
    simp only [Memory.write]
    split
    · split <;> simp [Memory.read, Ne.symm h]
    · split
      · next hc =>
        split <;> simp [Memory.read, Ne.symm h, hc]
      · simp only [Memory.read, ih]

/-- A read gives the byte written, in a memory in canonical form. -/
theorem Memory.read_write_same {m : Memory} (hm : Memory.wf m) (a : Nat) (b : Byte) :
    Memory.read (Memory.write m a b) a = b := by
  induction m with
  | nil => unfold Memory.write; split <;> simp_all [Memory.read]
  | cons c m ih =>
    obtain ⟨hp, hc⟩ := hm
    rw [List.pairwise_cons] at hp
    simp only [Memory.write]
    split
    · next hlt =>
      split
      · next hb =>
        rw [hb]
        refine Memory.read_of_forall_ne fun d hd => ?_
        rcases List.mem_cons.mp hd with rfl | hd
        · omega
        · have := hp.1 d hd; omega
      · simp [Memory.read]
    · split
      · next hca =>
        split
        · next hb =>
          rw [hb]
          exact Memory.read_of_forall_ne fun d hd => by have := hp.1 d hd; omega
        · simp [Memory.read]
      · next hne =>
        simp only [Memory.read, hne, if_false]
        exact ih ⟨hp.2, fun d hd => hc d (by simp [hd])⟩

/-- Every entry of a written memory is the new one or an old one. -/
theorem Memory.mem_write {m : Memory} {a : Nat} {b : Byte} {c : Host.Cell} (h : c ∈ Memory.write m a b) :
    c ∈ m ∨ (c = (a, b) ∧ b ≠ unlistedByte) := by
  induction m with
  | nil =>
    unfold Memory.write at h
    split at h <;> simp_all
  | cons d m ih =>
    simp only [Memory.write] at h
    split at h
    · split at h <;> simp_all
      tauto
    · split at h
      · split at h <;> simp_all
        tauto
      · rcases List.mem_cons.mp h with rfl | h
        · simp
        · rcases ih h with h | h <;> simp [h]

/-- A write keeps the canonical form. -/
theorem Memory.write_wf {m : Memory} (hm : Memory.wf m) {a : Nat} (ha : a < 2 ^ 32) (b : Byte) :
    Memory.wf (Memory.write m a b) := by
  refine ⟨?_, fun c hc => ?_⟩
  · induction m with
    | nil => unfold Memory.write; split <;> simp
    | cons c m ih =>
      obtain ⟨hp, hc⟩ := hm
      have hp' := List.pairwise_cons.mp hp
      simp only [Memory.write]
      split
      · next hlt =>
        split
        · exact hp
        · refine List.pairwise_cons.mpr ⟨fun d hd => ?_, hp⟩
          rcases List.mem_cons.mp hd with rfl | hd
          · exact hlt
          · have := hp'.1 d hd; simp only; omega
      · split
        · next hca =>
          split
          · exact hp'.2
          · exact List.pairwise_cons.mpr ⟨fun d hd => by have := hp'.1 d hd; simp only; omega, hp'.2⟩
        · next hge hne =>
          refine List.pairwise_cons.mpr ⟨fun d hd => ?_, ih ⟨hp'.2, fun d hd => hc d (by simp [hd])⟩⟩
          rcases Memory.mem_write hd with hd | ⟨rfl, -⟩
          · exact hp'.1 d hd
          · simp only; omega
  · rcases Memory.mem_write hc with hc | ⟨rfl, hb⟩
    · exact hm.2 c hc
    · exact ⟨ha, hb⟩

/-! ### One byte of the address space -/

@[simp] theorem State.storeByte_config (s : State) (a : Word) (b : Byte) : (s.storeByte a b).config = s.config := by
  unfold State.storeByte; split <;> rfl
@[simp] theorem State.storeByte_current (s : State) (a : Word) (b : Byte) : (s.storeByte a b).current = s.current := by
  unfold State.storeByte; split <;> rfl
@[simp] theorem State.storeByte_next (s : State) (a : Word) (b : Byte) : (s.storeByte a b).next = s.next := by
  unfold State.storeByte; split <;> rfl
@[simp] theorem State.storeByte_run (s : State) (a : Word) (b : Byte) : (s.storeByte a b).run = s.run := by
  unfold State.storeByte; split <;> rfl
@[simp] theorem State.storeByte_count (s : State) (a : Word) (b : Byte) : (s.storeByte a b).count = s.count := by
  unfold State.storeByte; split <;> rfl
@[simp] theorem State.storeByte_report (s : State) (a : Word) (b : Byte) : (s.storeByte a b).report = s.report := by
  unfold State.storeByte; split <;> rfl

/-- Only the configuration and the memory matter to a byte read. -/
theorem State.loadByte_congr {s t : State} (hc : t.config = s.config) (hm : t.mem = s.mem) (a : Word) :
    t.loadByte a = s.loadByte a := by
  simp [State.loadByte, hc, hm]

/-- An address in no segment reads 0 (R57). -/
theorem State.loadByte_unmapped {s : State} {a : Word} (h : s.config.mapped a = false) : s.loadByte a = 0#8 := by
  simp [State.loadByte, h]

/-- What a byte read gives after a byte write (R53, R57). -/
theorem State.loadByte_storeByte {s : State} (hm : Memory.wf s.mem) (a k : Word) (b : Byte) :
    (s.storeByte a b).loadByte k = if k = a ∧ s.config.mapped a = true then b else s.loadByte k := by
  unfold State.storeByte State.loadByte
  by_cases ha : s.config.mapped a = true
  · by_cases hk : k = a
    · subst hk; simp [ha, Memory.read_write_same hm]
    · have : k.toNat ≠ a.toNat := fun e => hk (BitVec.eq_of_toNat_eq e)
      simp [ha, hk, Memory.read_write_other _ _ this]
  · simp [ha]

/-- A byte write keeps the canonical form. -/
theorem State.storeByte_wf {s : State} (hm : Memory.wf s.mem) (a : Word) (b : Byte) :
    Memory.wf (s.storeByte a b).mem := by
  unfold State.storeByte
  split
  · exact Memory.write_wf hm a.isLt b
  · exact hm

/-- A byte write lists only addresses of segments. -/
theorem State.storeByte_mapped {s : State} (h : ∀ c ∈ s.mem, s.config.mapped (BitVec.ofNat 32 c.1) = true)
    (a : Word) (b : Byte) : ∀ c ∈ (s.storeByte a b).mem, s.config.mapped (BitVec.ofNat 32 c.1) = true := by
  intro c hc
  unfold State.storeByte at hc
  split at hc
  · next ha =>
    rcases Memory.mem_write hc with hc | ⟨rfl, -⟩
    · exact h c hc
    · simpa using ha
  · exact h c hc

/-! ### Wide accesses -/

@[simp] theorem State.writeBytes_config (n : Nat) (s : State) (a v : Word) :
    (s.writeBytes a v n).config = s.config := by
  induction n generalizing s a v with
  | zero => rfl
  | succ n ih => simp [State.writeBytes, ih]
@[simp] theorem State.writeBytes_current (n : Nat) (s : State) (a v : Word) :
    (s.writeBytes a v n).current = s.current := by
  induction n generalizing s a v with
  | zero => rfl
  | succ n ih => simp [State.writeBytes, ih]
@[simp] theorem State.writeBytes_next (n : Nat) (s : State) (a v : Word) :
    (s.writeBytes a v n).next = s.next := by
  induction n generalizing s a v with
  | zero => rfl
  | succ n ih => simp [State.writeBytes, ih]
@[simp] theorem State.writeBytes_run (n : Nat) (s : State) (a v : Word) : (s.writeBytes a v n).run = s.run := by
  induction n generalizing s a v with
  | zero => rfl
  | succ n ih => simp [State.writeBytes, ih]
@[simp] theorem State.writeBytes_count (n : Nat) (s : State) (a v : Word) :
    (s.writeBytes a v n).count = s.count := by
  induction n generalizing s a v with
  | zero => rfl
  | succ n ih => simp [State.writeBytes, ih]
@[simp] theorem State.writeBytes_report (n : Nat) (s : State) (a v : Word) :
    (s.writeBytes a v n).report = s.report := by
  induction n generalizing s a v with
  | zero => rfl
  | succ n ih => simp [State.writeBytes, ih]

@[simp] theorem State.memWrite_config (s : State) (a v : Word) (n : Size) : (s.memWrite a n v).config = s.config := by
  simp [State.memWrite]
@[simp] theorem State.memWrite_current (s : State) (a v : Word) (n : Size) :
    (s.memWrite a n v).current = s.current := by
  simp [State.memWrite]
@[simp] theorem State.memWrite_next (s : State) (a v : Word) (n : Size) : (s.memWrite a n v).next = s.next := by
  simp [State.memWrite]
@[simp] theorem State.memWrite_run (s : State) (a v : Word) (n : Size) : (s.memWrite a n v).run = s.run := by
  simp [State.memWrite]
@[simp] theorem State.memWrite_count (s : State) (a v : Word) (n : Size) : (s.memWrite a n v).count = s.count := by
  simp [State.memWrite]
@[simp] theorem State.memWrite_report (s : State) (a v : Word) (n : Size) :
    (s.memWrite a n v).report = s.report := by
  simp [State.memWrite]

/-- A wide write keeps the canonical form and lists only addresses of segments. -/
theorem State.writeBytes_keeps (n : Nat) {s : State} (hm : Memory.wf s.mem)
    (h : ∀ c ∈ s.mem, s.config.mapped (BitVec.ofNat 32 c.1) = true) (a v : Word) :
    Memory.wf (s.writeBytes a v n).mem ∧
      ∀ c ∈ (s.writeBytes a v n).mem, s.config.mapped (BitVec.ofNat 32 c.1) = true := by
  induction n generalizing s a v with
  | zero => exact ⟨hm, h⟩
  | succ n ih =>
    have := ih (s := s.storeByte a (v.setWidth 8)) (State.storeByte_wf hm a _)
      (by simpa using State.storeByte_mapped h a _) (a + 1#32) (v >>> 8)
    simpa [State.writeBytes] using this

/-- A wide write keeps the canonical form. -/
theorem State.writeBytes_wf (n : Nat) {s : State} (hm : Memory.wf s.mem) (a v : Word) :
    Memory.wf (s.writeBytes a v n).mem := by
  induction n generalizing s a v with
  | zero => exact hm
  | succ n ih => exact ih (State.storeByte_wf hm a _) _ _

/-- A wide write whose bytes lie in no segment changes nothing (R57). -/
theorem State.writeBytes_unmapped (n : Nat) (s : State) (a v : Word)
    (h : ∀ k, k < n → s.config.mapped (a + BitVec.ofNat 32 k) = false) : s.writeBytes a v n = s := by
  induction n generalizing s a v with
  | zero => rfl
  | succ n ih =>
    have h0 : s.config.mapped a = false := by simpa using h 0 (by omega)
    have hs : s.storeByte a (v.setWidth 8) = s := by simp [State.storeByte, h0]
    rw [State.writeBytes, hs]
    refine ih s _ _ fun k hk => ?_
    have := h (k + 1) (by omega)
    rwa [Nat.add_comm, BitVec.ofNat_add, ← BitVec.add_assoc] at this

/-- What a byte read gives after a wide write: byte `k` of the value at the `k`-th address, in segments (R53, R59). -/
theorem State.loadByte_writeBytes {n : Nat} (hn : n ≤ 4) {s : State} (hm : Memory.wf s.mem) (a v b : Word) :
    (s.writeBytes a v n).loadByte b =
      if (b - a).toNat < n ∧ s.config.mapped b = true then v.extractLsb' (8 * (b - a).toNat) 8 else s.loadByte b := by
  induction n generalizing s a v with
  | zero => simp [State.writeBytes]
  | succ n ih =>
    rw [State.writeBytes, ih (by omega) (State.storeByte_wf hm a _), State.loadByte_storeByte hm,
      State.storeByte_config]
    by_cases hb : b = a
    · subst hb
      have h1 : (b - (b + 1#32)).toNat = 2 ^ 32 - 1 := by
        rw [show b - (b + 1#32) = (-1#32) by ring]; rfl
      have h0 : (b - b).toNat = 0 := by simp
      rw [if_neg (by omega), h0]
      simp only [true_and, Nat.mul_zero, Nat.zero_lt_succ]
      rfl
    · have hne : (b - a).toNat ≠ 0 := by
        intro e
        apply hb
        have : b - a = 0#32 := BitVec.eq_of_toNat_eq (by simpa using e)
        exact sub_eq_zero.mp this
      have h1 : (b - (a + 1#32)).toNat = (b - a).toNat - 1 := by
        rw [show b - (a + 1#32) = (b - a) - 1#32 by ring]
        have := (b - a).isLt
        generalize b - a = d at *
        rw [BitVec.toNat_sub]
        simp only [BitVec.toNat_ofNat]
        omega
      rw [h1]
      by_cases hlt : (b - a).toNat < n + 1 ∧ s.config.mapped b = true
      · rw [if_pos ⟨by omega, hlt.2⟩, if_pos hlt]
        ext i hi
        simp only [BitVec.getElem_extractLsb', BitVec.getLsbD_ushiftRight]
        congr 1; omega
      · rw [if_neg (fun h => hlt ⟨by omega, h.2⟩), if_neg hlt, if_neg (by simp [hb])]

/-- `MemWrite` changes its own bytes, in segments, and no other (R59). -/
theorem State.loadByte_memWrite {s : State} (hm : Memory.wf s.mem) (a v b : Word) (n : Size) :
    (s.memWrite a n v).loadByte b =
      if (b - a).toNat < n.bytes ∧ s.config.mapped b = true then v.extractLsb' (8 * (b - a).toNat) 8
      else s.loadByte b :=
  State.loadByte_writeBytes (by cases n <;> decide) hm a v b

/-- `MemWrite` keeps the canonical form and lists only addresses of segments. -/
theorem State.memWrite_keeps {s : State} (hm : Memory.wf s.mem)
    (h : ∀ c ∈ s.mem, s.config.mapped (BitVec.ofNat 32 c.1) = true) (a v : Word) (n : Size) :
    Memory.wf (s.memWrite a n v).mem ∧
      ∀ c ∈ (s.memWrite a n v).mem, s.config.mapped (BitVec.ofNat 32 c.1) = true :=
  State.writeBytes_keeps n.bytes hm h a v

/-- `MemWrite` keeps the canonical form. -/
theorem State.memWrite_wf {s : State} (hm : Memory.wf s.mem) (a v : Word) (n : Size) :
    Memory.wf (s.memWrite a n v).mem :=
  State.writeBytes_wf n.bytes hm a v

/-- The memory after a write does not depend on the processor state. -/
theorem State.memWrite_mem_congr {s t : State} (hc : t.config = s.config) (hm : t.mem = s.mem) (a v : Word)
    (n : Size) : (t.memWrite a n v).mem = (s.memWrite a n v).mem := by
  have h : ∀ k (s t : State) (a v : Word), t.config = s.config → t.mem = s.mem →
      (t.writeBytes a v k).mem = (s.writeBytes a v k).mem := by
    intro k
    induction k with
    | zero => intro s t a v _ hm; exact hm
    | succ k ih =>
      intro s t a v hc hm
      refine ih _ _ _ _ (by simp [hc]) ?_
      unfold State.storeByte
      rw [hc]
      split <;> simp [hm]
  exact h _ _ _ _ _ hc hm

/-- A wide read is the concatenation of its bytes, the first the least significant (R53, R58). -/
theorem State.memRead_byte (s : State) (a : Word) : s.memRead a .byte = (s.loadByte a).setWidth 32 := by
  simp [State.memRead, Size.bytes, State.readBytes]

theorem State.memRead_half (s : State) (a : Word) :
    s.memRead a .half = (s.loadByte (a + 1#32) ++ s.loadByte a).setWidth 32 := by
  simp only [State.memRead, Size.bytes, State.readBytes]
  generalize s.loadByte a = b0
  generalize s.loadByte (a + 1#32) = b1
  ext i hi
  simp only [BitVec.getElem_or, BitVec.getElem_setWidth, BitVec.getElem_shiftLeft, BitVec.getLsbD_append]
  by_cases h : i < 8
  · simp [h]
  · simp [h, BitVec.getLsbD_of_ge b0 i (by omega)]

theorem State.memRead_word (s : State) (a : Word) :
    s.memRead a .word =
      wordOfBytes (s.loadByte a) (s.loadByte (a + 1#32)) (s.loadByte (a + 2#32)) (s.loadByte (a + 3#32)) := by
  have e2 : a + 1#32 + 1#32 = a + 2#32 := by rw [BitVec.add_assoc]; rfl
  have e3 : a + 2#32 + 1#32 = a + 3#32 := by rw [BitVec.add_assoc]; rfl
  simp only [State.memRead, Size.bytes, State.readBytes, e2, e3]
  generalize s.loadByte a = b0
  generalize s.loadByte (a + 1#32) = b1
  generalize s.loadByte (a + 2#32) = b2
  generalize s.loadByte (a + 3#32) = b3
  unfold wordOfBytes
  change _ = (b3 ++ b2 ++ b1 ++ b0 : BitVec (8 + 8 + 8 + 8))
  apply BitVec.eq_of_getLsbD_eq
  intro i hi
  simp only [BitVec.getLsbD_or, BitVec.getLsbD_setWidth, BitVec.getLsbD_shiftLeft, BitVec.getLsbD_append]
  have hi' : i < 32 := hi
  have l1 : i - 8 < 32 := by omega
  have l2 : i - 8 - 8 < 32 := by omega
  have l3 : i - 8 - 8 - 8 < 32 := by omega
  by_cases h0 : i < 8
  · simp [h0]; omega
  · by_cases h1 : i < 16
    · simp [h0, BitVec.getLsbD_of_ge b0 i (by omega), show i - 8 < 8 by omega, hi', l1]
    · by_cases h2 : i < 24
      · simp [h0, BitVec.getLsbD_of_ge b0 i (by omega), BitVec.getLsbD_of_ge b1 (i - 8) (by omega),
          show ¬ i - 8 < 8 by omega, show i - 8 - 8 < 8 by omega, hi', l1, l2]
      · simp [h0, BitVec.getLsbD_of_ge b0 i (by omega), BitVec.getLsbD_of_ge b1 (i - 8) (by omega),
          BitVec.getLsbD_of_ge b2 (i - 8 - 8) (by omega),
          show ¬ i - 8 < 8 by omega, show ¬ i - 8 - 8 < 8 by omega, hi', l1, l2, l3]

/-- Only the configuration and the memory matter to a read. -/
theorem State.memRead_congr {s t : State} (hc : t.config = s.config) (hm : t.mem = s.mem) (a : Word) (n : Size) :
    t.memRead a n = s.memRead a n := by
  have h : ∀ k a, t.readBytes a k = s.readBytes a k := by
    intro k
    induction k with
    | zero => intro a; rfl
    | succ k ih => intro a; simp [State.readBytes, ih, State.loadByte_congr hc hm]
  exact h _ _

end Sys2Proof.Machine
end

