-- ==== Sys2Proof/Laws/State.lean ====
section
/-! SUPPORT. One lemma per field per update of the state, true by `rfl`, so that no proof unfolds a record
update. -/

namespace Sys2Proof.Machine

@[simp] theorem State.beginStep_config (s : State) : (s.beginStep).config = s.config := rfl
@[simp] theorem State.beginStep_current (s : State) : (s.beginStep).current = s.current := rfl
@[simp] theorem State.beginStep_next (s : State) : (s.beginStep).next = { s.current with pc := s.pc + 4#32 } := rfl
@[simp] theorem State.beginStep_mem (s : State) : (s.beginStep).mem = s.mem := rfl
@[simp] theorem State.beginStep_run (s : State) : (s.beginStep).run = s.run := rfl
@[simp] theorem State.beginStep_count (s : State) : (s.beginStep).count = s.count := rfl
@[simp] theorem State.beginStep_report (s : State) : (s.beginStep).report = s.report := rfl

@[simp] theorem State.setPc_config (s : State) (t : Word) : (s.setPc t).config = s.config := rfl
@[simp] theorem State.setPc_current (s : State) (t : Word) : (s.setPc t).current = s.current := rfl
@[simp] theorem State.setPc_next (s : State) (t : Word) : (s.setPc t).next = { s.next with pc := t } := rfl
@[simp] theorem State.setPc_mem (s : State) (t : Word) : (s.setPc t).mem = s.mem := rfl
@[simp] theorem State.setPc_run (s : State) (t : Word) : (s.setPc t).run = s.run := rfl
@[simp] theorem State.setPc_count (s : State) (t : Word) : (s.setPc t).count = s.count := rfl
@[simp] theorem State.setPc_report (s : State) (t : Word) : (s.setPc t).report = s.report := rfl

@[simp] theorem State.setReg_config (s : State) (r : Reg) (v : Word) : (s.setReg r v).config = s.config := rfl
@[simp] theorem State.setReg_current (s : State) (r : Reg) (v : Word) : (s.setReg r v).current = s.current := rfl
@[simp] theorem State.setReg_next (s : State) (r : Reg) (v : Word) : (s.setReg r v).next = s.next.setReg r v := rfl
@[simp] theorem State.setReg_mem (s : State) (r : Reg) (v : Word) : (s.setReg r v).mem = s.mem := rfl
@[simp] theorem State.setReg_run (s : State) (r : Reg) (v : Word) : (s.setReg r v).run = s.run := rfl
@[simp] theorem State.setReg_count (s : State) (r : Reg) (v : Word) : (s.setReg r v).count = s.count := rfl
@[simp] theorem State.setReg_report (s : State) (r : Reg) (v : Word) : (s.setReg r v).report = s.report := rfl

@[simp] theorem State.setHi_config (s : State) (v : Word) : (s.setHi v).config = s.config := rfl
@[simp] theorem State.setHi_current (s : State) (v : Word) : (s.setHi v).current = s.current := rfl
@[simp] theorem State.setHi_next (s : State) (v : Word) : (s.setHi v).next = { s.next with hi := v } := rfl
@[simp] theorem State.setHi_mem (s : State) (v : Word) : (s.setHi v).mem = s.mem := rfl
@[simp] theorem State.setHi_run (s : State) (v : Word) : (s.setHi v).run = s.run := rfl
@[simp] theorem State.setHi_count (s : State) (v : Word) : (s.setHi v).count = s.count := rfl
@[simp] theorem State.setHi_report (s : State) (v : Word) : (s.setHi v).report = s.report := rfl

@[simp] theorem State.setLo_config (s : State) (v : Word) : (s.setLo v).config = s.config := rfl
@[simp] theorem State.setLo_current (s : State) (v : Word) : (s.setLo v).current = s.current := rfl
@[simp] theorem State.setLo_next (s : State) (v : Word) : (s.setLo v).next = { s.next with lo := v } := rfl
@[simp] theorem State.setLo_mem (s : State) (v : Word) : (s.setLo v).mem = s.mem := rfl
@[simp] theorem State.setLo_run (s : State) (v : Word) : (s.setLo v).run = s.run := rfl
@[simp] theorem State.setLo_count (s : State) (v : Word) : (s.setLo v).count = s.count := rfl
@[simp] theorem State.setLo_report (s : State) (v : Word) : (s.setLo v).report = s.report := rfl

@[simp] theorem State.commit_config (s : State) : (s.commit).config = s.config := rfl
@[simp] theorem State.commit_current (s : State) : (s.commit).current = s.next.forceZero := rfl
@[simp] theorem State.commit_next (s : State) : (s.commit).next = s.next.forceZero := rfl
@[simp] theorem State.commit_mem (s : State) : (s.commit).mem = s.mem := rfl
@[simp] theorem State.commit_run (s : State) : (s.commit).run = s.run := rfl
@[simp] theorem State.commit_count (s : State) : (s.commit).count = s.count + 1 := rfl
@[simp] theorem State.commit_report (s : State) : (s.commit).report = s.report := rfl

@[simp] theorem State.raise_config (s : State) (e : HaltReason) (w a : Option Word) : (s.raise e w a).config = s.config := rfl
@[simp] theorem State.raise_current (s : State) (e : HaltReason) (w a : Option Word) : (s.raise e w a).current = s.current := rfl
@[simp] theorem State.raise_next (s : State) (e : HaltReason) (w a : Option Word) : (s.raise e w a).next = s.current := rfl
@[simp] theorem State.raise_mem (s : State) (e : HaltReason) (w a : Option Word) : (s.raise e w a).mem = s.mem := rfl
@[simp] theorem State.raise_run (s : State) (e : HaltReason) (w a : Option Word) : (s.raise e w a).run = .halted := rfl
@[simp] theorem State.raise_count (s : State) (e : HaltReason) (w a : Option Word) : (s.raise e w a).count = s.count := rfl
@[simp] theorem State.raise_report (s : State) (e : HaltReason) (w a : Option Word) : (s.raise e w a).report = some { reason := e, pc := s.pc, word := w, addr := a } := rfl

@[simp] theorem State.halt_config (s : State) (p w : Word) : (s.halt p w).config = s.config := rfl
@[simp] theorem State.halt_current (s : State) (p w : Word) : (s.halt p w).current = s.current := rfl
@[simp] theorem State.halt_next (s : State) (p w : Word) : (s.halt p w).next = s.next := rfl
@[simp] theorem State.halt_mem (s : State) (p w : Word) : (s.halt p w).mem = s.mem := rfl
@[simp] theorem State.halt_run (s : State) (p w : Word) : (s.halt p w).run = .halted := rfl
@[simp] theorem State.halt_count (s : State) (p w : Word) : (s.halt p w).count = s.count := rfl
@[simp] theorem State.halt_report (s : State) (p w : Word) : (s.halt p w).report = some { reason := .halt, pc := p, word := some w, addr := none } := rfl

@[simp] theorem Proc.setReg_pc (p : Proc) (r : Reg) (v : Word) : (p.setReg r v).pc = p.pc := by
  unfold Proc.setReg; split <;> rfl
@[simp] theorem Proc.setReg_hi (p : Proc) (r : Reg) (v : Word) : (p.setReg r v).hi = p.hi := by
  unfold Proc.setReg; split <;> rfl
@[simp] theorem Proc.setReg_lo (p : Proc) (r : Reg) (v : Word) : (p.setReg r v).lo = p.lo := by
  unfold Proc.setReg; split <;> rfl

@[simp] theorem Proc.forceZero_pc (p : Proc) : p.forceZero.pc = p.pc := rfl
@[simp] theorem Proc.forceZero_hi (p : Proc) : p.forceZero.hi = p.hi := rfl
@[simp] theorem Proc.forceZero_lo (p : Proc) : p.forceZero.lo = p.lo := rfl

/-- The register a commit forces to 0 holds 0 (R104). -/
@[simp] theorem Proc.forceZero_stored (p : Proc) : p.forceZero.regs[0] = 0#32 := by
  simp [Proc.forceZero]

/-- Register 0 reads as zero (R24). -/
@[simp] theorem Proc.reg_zero (p : Proc) : p.reg 0#5 = 0#32 := by simp [Proc.reg]

/-- Only the vector of registers matters to a register read. -/
theorem Proc.reg_congr {p q : Proc} (h : p.regs = q.regs) (r : Reg) : p.reg r = q.reg r := by
  simp [Proc.reg, h]

/-- Forcing register 0 to 0 changes no register read. -/
@[simp] theorem Proc.reg_forceZero (p : Proc) (r : Reg) : p.forceZero.reg r = p.reg r := by
  unfold Proc.reg Proc.forceZero
  split
  · rfl
  · next h =>
    have : r.toNat ≠ 0 := fun e => h (BitVec.eq_of_toNat_eq (by simpa using e))
    simp [this.symm]

/-- A register reads the value written to it, unless it is register 0 (R24). -/
theorem Proc.reg_setReg (p : Proc) (r q : Reg) (v : Word) :
    (p.setReg r v).reg q = if q = r ∧ q ≠ 0#5 then v else p.reg q := by
  unfold Proc.setReg Proc.reg
  by_cases hq : q = 0#5
  · simp [hq]
  · by_cases hr : r = 0#5
    · have : q ≠ r := fun e => hq (e.trans hr)
      simp [hr, hq]
    · by_cases e : q = r
      · subst e; simp [hq]
      · have : r.toNat ≠ q.toNat := fun h => e (BitVec.eq_of_toNat_eq h).symm
        simp [hq, hr, e, this]

/-- The stored register 0 is not touched by a register write. -/
@[simp] theorem Proc.setReg_stored_zero (p : Proc) (r : Reg) (v : Word) :
    (p.setReg r v).regs[0] = p.regs[0] := by
  unfold Proc.setReg
  split
  · rfl
  · next h =>
    have : r.toNat ≠ 0 := fun e => h (BitVec.eq_of_toNat_eq (by simpa using e))
    simp [this]

end Sys2Proof.Machine
end

