-- ==== Sys2Proof/Laws/Ops.lean ====
section
/-! SUPPORT. One lemma per shared operation: everything it changes and everything it leaves. Later proofs cite
these and unfold none of the operations. -/

namespace Sys2Proof.Machine

/-- What a state committed from `s` with PC `pc`, HI `hi` and LO `lo` looks like, registers and memory apart. -/
structure Committed (s t : State) (pc hi lo : Word) : Prop where
  pc_eq       : t.pc = pc
  hi_eq       : t.hi = hi
  lo_eq       : t.lo = lo
  stored_zero : t.current.regs[0] = 0#32
  copies      : t.next = t.current
  count_eq    : t.count = s.count + 1
  run_eq      : t.run = s.run
  report_eq   : t.report = s.report
  config_eq   : t.config = s.config

theorem State.advance_spec (s : State) :
    Committed s s.advance (s.pc + 4#32) s.hi s.lo ∧ (∀ r, s.advance.reg r = s.reg r) ∧ s.advance.mem = s.mem := by
  refine ⟨⟨rfl, rfl, rfl, ?_, rfl, rfl, rfl, rfl, rfl⟩, fun r => ?_, rfl⟩
  · simp [State.advance]
  · simp only [State.reg, State.advance, State.commit_current, Proc.reg_forceZero]
    exact Proc.reg_congr rfl r

theorem State.writeBack_spec (s : State) (r : Reg) (v : Word) :
    Committed s (s.writeBack r v) (s.pc + 4#32) s.hi s.lo ∧
      (∀ q, (s.writeBack r v).reg q = if q = r ∧ q ≠ 0#5 then v else s.reg q) ∧ (s.writeBack r v).mem = s.mem := by
  refine ⟨⟨?_, ?_, ?_, ?_, rfl, rfl, rfl, rfl, rfl⟩, fun q => ?_, rfl⟩
  · simp [State.pc, State.writeBack]
  · simp [State.hi, State.writeBack]
  · simp [State.lo, State.writeBack]
  · simp [State.writeBack]
  · simp only [State.reg, State.writeBack, State.commit_current, Proc.reg_forceZero, State.setReg_next,
      Proc.reg_setReg]
    rw [Proc.reg_congr (p := s.beginStep.next) (q := s.current) rfl q]

theorem State.writeHiLo_spec (s : State) (hi lo : Word) :
    Committed s (s.writeHiLo hi lo) (s.pc + 4#32) hi lo ∧ (∀ r, (s.writeHiLo hi lo).reg r = s.reg r) ∧
      (s.writeHiLo hi lo).mem = s.mem := by
  refine ⟨⟨rfl, rfl, rfl, ?_, rfl, rfl, rfl, rfl, rfl⟩, fun r => ?_, rfl⟩
  · simp [State.writeHiLo]
  · simp only [State.reg, State.writeHiLo, State.commit_current, Proc.reg_forceZero]
    exact Proc.reg_congr rfl r

theorem State.jump_spec (s : State) (target : Word) :
    Committed s (s.jump target) target s.hi s.lo ∧ (∀ r, (s.jump target).reg r = s.reg r) ∧
      (s.jump target).mem = s.mem := by
  refine ⟨⟨rfl, rfl, rfl, ?_, rfl, rfl, rfl, rfl, rfl⟩, fun r => ?_, rfl⟩
  · simp [State.jump]
  · simp only [State.reg, State.jump, State.commit_current, Proc.reg_forceZero]
    exact Proc.reg_congr rfl r

theorem State.jumpAndLink_spec (s : State) (r : Reg) (link target : Word) :
    Committed s (s.jumpAndLink r link target) target s.hi s.lo ∧
      (∀ q, (s.jumpAndLink r link target).reg q = if q = r ∧ q ≠ 0#5 then link else s.reg q) ∧
      (s.jumpAndLink r link target).mem = s.mem := by
  refine ⟨⟨?_, ?_, ?_, ?_, rfl, rfl, rfl, rfl, rfl⟩, fun q => ?_, rfl⟩
  · simp [State.pc, State.jumpAndLink]
  · simp [State.hi, State.jumpAndLink]
  · simp [State.lo, State.jumpAndLink]
  · simp [State.jumpAndLink]
  · simp only [State.reg, State.jumpAndLink, State.commit_current, Proc.reg_forceZero]
    rw [Proc.reg_congr (p := ((s.beginStep.setReg r link).setPc target).next)
        (q := s.beginStep.next.setReg r link) rfl q, Proc.reg_setReg,
      Proc.reg_congr (p := s.beginStep.next) (q := s.current) rfl q]

theorem State.branch_spec (s : State) (taken : Bool) (target : Word) :
    Committed s (s.branch taken target) (if taken then target else s.pc + 4#32) s.hi s.lo ∧
      (∀ r, (s.branch taken target).reg r = s.reg r) ∧ (s.branch taken target).mem = s.mem := by
  cases taken
  · exact State.advance_spec s
  · exact State.jump_spec s target

/-- A committed store: memory is that of the write, and the processor state only advances. -/
theorem State.memWrite_commit_spec (s : State) (ea v : Word) (n : Size) :
    Committed s (s.beginStep.memWrite ea n v).commit (s.pc + 4#32) s.hi s.lo ∧
      (∀ r, (s.beginStep.memWrite ea n v).commit.reg r = s.reg r) ∧
      (s.beginStep.memWrite ea n v).commit.mem = (s.beginStep.memWrite ea n v).mem := by
  refine ⟨⟨?_, ?_, ?_, ?_, rfl, ?_, ?_, ?_, ?_⟩, fun r => ?_, rfl⟩
  · simp [State.pc]
  · simp [State.hi]
  · simp [State.lo]
  · simp
  · simp
  · simp
  · simp
  · simp
  · simp only [State.reg, State.commit_current, Proc.reg_forceZero, State.memWrite_next]
    exact Proc.reg_congr rfl r

/-- A load either raises AlignmentViolation or writes back the extended value (R56, R159). -/
theorem State.load_spec (s : State) (i : Instr) (ea : Word) (n : Size) (extend : Word → Word) (r : Reg) :
    (s.refusesAccess ea n = true ∧
      s.load i ea n extend r = .next (s.raise .alignmentViolation (some (encode i)) (some ea))) ∨
    (s.refusesAccess ea n = false ∧ s.load i ea n extend r = .next (s.writeBack r (extend (s.memRead ea n)))) := by
  unfold State.load
  cases h : s.refusesAccess ea n <;> simp

/-- A store either raises AlignmentViolation or writes its bytes (R56, R60). -/
theorem State.store_spec (s : State) (i : Instr) (ea : Word) (n : Size) (v : Word) :
    (s.refusesAccess ea n = true ∧
      s.store i ea n v = .next (s.raise .alignmentViolation (some (encode i)) (some ea))) ∨
    (s.refusesAccess ea n = false ∧ s.store i ea n v = .next (s.beginStep.memWrite ea n v).commit) := by
  unfold State.store
  cases h : s.refusesAccess ea n <;> simp

theorem State.refusesAccess_eq_false (s : State) (a : Word) (n : Size) :
    s.refusesAccess a n = false ↔ (s.config.misalignedPolicy = .refuse → a.toNat % n.bytes = 0) := by
  simp [State.refusesAccess]

theorem State.refusesAccess_eq_true (s : State) (a : Word) (n : Size) :
    s.refusesAccess a n = true ↔ s.config.misalignedPolicy = .refuse ∧ a.toNat % n.bytes ≠ 0 := by
  simp [State.refusesAccess]

/-- The front of a step, said once: HALTED, a refused fetch, an unmapped word, or an instruction (R100, R101, R107). -/
theorem State.fetchDecode_spec (s : State) :
    (s.run = .halted ∧ s.fetchDecode = .stop s) ∨
    (s.run = .running ∧ s.refusesAccess s.pc .word = true ∧
      s.fetchDecode = .stop (s.raise .alignmentViolation none (some s.pc))) ∨
    (s.run = .running ∧ s.refusesAccess s.pc .word = false ∧ ∃ e, decode (s.memRead s.pc .word) = .reject e ∧
      s.fetchDecode = .stop (s.raise .decodeFault (some (s.memRead s.pc .word)) none)) ∨
    (s.run = .running ∧ s.refusesAccess s.pc .word = false ∧ ∃ i, decode (s.memRead s.pc .word) = .instr i ∧
      s.fetchDecode = .execute i) := by
  unfold State.fetchDecode
  cases hr : s.run
  · cases ha : s.refusesAccess s.pc .word
    · cases hd : decode (s.memRead s.pc .word) <;> simp
    · simp
  · simp

end Sys2Proof.Machine
end

