-- ==== Sys2Proof/Laws/Exec.lean ====
section
/-! SUPPORT. What executing an instruction can do, said once for all 44: which shared operation it comes to, and
when. Claims about every instruction are case analyses of `exec_cases`. -/

namespace Sys2Proof.Machine

/-- The reports a fault of `exec` can leave, with the condition each is raised under (R190). -/
def RaisedBy (i : Instr) (s : State) (e : HaltReason) (a : Option Word) : Prop :=
  (e = .divideByZero ∧ a = none ∧ ∃ f, (i = .div f ∨ i = .divu f) ∧ s.reg f.rt = 0#32) ∨
  (e = .alignmentViolation ∧ ∃ f n, (i = .lw f ∨ i = .lh f ∨ i = .lb f ∨ i = .sw f ∨ i = .sh f ∨ i = .sb f) ∧
    accessSize i = some n ∧ a = some (s.effectiveAddress f) ∧ s.refusesAccess (s.effectiveAddress f) n = true)

/-- Every instruction comes to one shared operation (R108). -/
theorem exec_cases (i : Instr) (s : State) :
    (∃ r v, i.gprWritten = some r ∧ i.isControlFlow = false ∧ exec i s = .next (s.writeBack r v)) ∨
    (∃ f hi lo, i.gprWritten = none ∧
      (i = .mult f ∨ i = .multu f ∨ (i = .div f ∨ i = .divu f) ∧ s.reg f.rt ≠ 0#32 ∨
        i = .mthi f ∧ lo = s.lo ∨ i = .mtlo f ∧ hi = s.hi) ∧
      exec i s = .next (s.writeHiLo hi lo)) ∨
    (∃ f n, i.gprWritten = none ∧ (i = .sw f ∨ i = .sh f ∨ i = .sb f) ∧ accessSize i = some n ∧
      s.refusesAccess (s.effectiveAddress f) n = false ∧
      exec i s = .next (s.beginStep.memWrite (s.effectiveAddress f) n (s.reg f.rt)).commit) ∨
    (∃ f taken, i.gprWritten = none ∧
      (i = .beq f ∨ i = .bne f ∨ i = .blez f ∨ i = .bgtz f ∨ i = .bltz f ∨ i = .bgez f) ∧
      exec i s = .next (s.branch taken (s.branchTarget f))) ∨
    (∃ target, i.gprWritten = none ∧ ((∃ f, i = .j f ∧ target = s.jumpTarget f) ∨ ∃ f, i = .jr f ∧ target = s.reg f.rs) ∧
      exec i s = .next (s.jump target)) ∨
    (∃ r target, i.gprWritten = some r ∧
      ((∃ f, i = .jal f ∧ target = s.jumpTarget f) ∨ ∃ f, i = .jalr f ∧ target = s.reg f.rs) ∧
      exec i s = .next (s.jumpAndLink r s.linkValue target)) ∨
    (∃ f, i = .syscall f ∧ s.syscallHalts = false ∧ exec i s = .next s.advance) ∨
    (∃ f, i = .syscall f ∧ s.syscallHalts = true ∧ exec i s = .next (s.advance.halt s.pc (encode i))) ∨
    (∃ e a, RaisedBy i s e a ∧ exec i s = .next (s.raise e (some (encode i)) a)) ∨
    (∃ f, i = .div f ∧ s.config.divOverflow = .refuse ∧ s.reg f.rs = 0x80000000#32 ∧
      s.reg f.rt = 0xFFFFFFFF#32 ∧ exec i s = .refused .divOverflow) := by
  cases i with
  | sll f | srl f | sra f | mfhi f | mflo f | add f | addu f | sub f | subu f | and f | or f | xor f | nor f
  | slt f | addi f | addiu f | slti f | andi f | ori f | xori f | lui f => exact .inl ⟨_, _, rfl, rfl, rfl⟩
  | mult f | multu f | mthi f | mtlo f => exact .inr (.inl ⟨f, _, _, rfl, by simp, rfl⟩)
  | div f =>
    by_cases h : s.reg f.rt = 0#32
    · refine .inr (.inr (.inr (.inr (.inr (.inr (.inr (.inr (.inl ?_))))))))
      exact ⟨_, _, .inl ⟨rfl, rfl, f, by simp, h⟩, by simp [exec, execDiv, h, State.divideByZero]⟩
    · by_cases ho : s.config.divOverflow = .refuse ∧ s.reg f.rs = 0x80000000#32 ∧ s.reg f.rt = 0xFFFFFFFF#32
      · refine .inr (.inr (.inr (.inr (.inr (.inr (.inr (.inr (.inr ?_))))))))
        exact ⟨f, rfl, ho.1, ho.2.1, ho.2.2, by rw [exec, execDiv, if_neg h, if_pos ho]⟩
      · exact .inr (.inl ⟨f, _, _, rfl, by simp [h], by rw [exec, execDiv, if_neg h, if_neg ho]⟩)
  | divu f =>
    by_cases h : s.reg f.rt = 0#32
    · refine .inr (.inr (.inr (.inr (.inr (.inr (.inr (.inr (.inl ?_))))))))
      exact ⟨_, _, .inl ⟨rfl, rfl, f, by simp, h⟩, by simp [exec, execDivu, h, State.divideByZero]⟩
    · exact .inr (.inl ⟨f, _, _, rfl, by simp [h], by rw [exec, execDivu, if_neg h]⟩)
  | lw f | lh f | lb f =>
    rcases State.load_spec s _ (s.effectiveAddress f) _ _ f.rt with ⟨hr, he⟩ | ⟨hr, he⟩
    · refine .inr (.inr (.inr (.inr (.inr (.inr (.inr (.inr (.inl ?_))))))))
      exact ⟨_, _, .inr ⟨rfl, f, _, by simp, rfl, rfl, hr⟩, he⟩
    · exact .inl ⟨_, _, rfl, rfl, he⟩
  | sw f | sh f | sb f =>
    rcases State.store_spec s _ (s.effectiveAddress f) _ (s.reg f.rt) with ⟨hr, he⟩ | ⟨hr, he⟩
    · refine .inr (.inr (.inr (.inr (.inr (.inr (.inr (.inr (.inl ?_))))))))
      exact ⟨_, _, .inr ⟨rfl, f, _, by simp, rfl, rfl, hr⟩, he⟩
    · exact .inr (.inr (.inl ⟨f, _, rfl, by simp, rfl, hr, he⟩))
  | beq f | bne f | blez f | bgtz f | bltz f | bgez f =>
    exact .inr (.inr (.inr (.inl ⟨f, _, rfl, by simp, rfl⟩)))
  | j f | jr f => exact .inr (.inr (.inr (.inr (.inl ⟨_, rfl, by simp, rfl⟩))))
  | jal f | jalr f => exact .inr (.inr (.inr (.inr (.inr (.inl ⟨_, _, rfl, by simp, rfl⟩)))))
  | syscall f =>
    cases h : s.syscallHalts
    · refine .inr (.inr (.inr (.inr (.inr (.inr (.inl ?_))))))
      exact ⟨f, rfl, rfl, by simp [exec, execSyscall, h]⟩
    · refine .inr (.inr (.inr (.inr (.inr (.inr (.inr (.inl ?_)))))))
      exact ⟨f, rfl, rfl, by simp [exec, execSyscall, h]⟩

end Sys2Proof.Machine
end

