-- ==== Sys2Proof/Laws/PerInstr.lean ====
section
/-! SUPPORT. One law per constructor: the word an instruction encodes to has the format of its record, whatever
the fields hold (30_encoding.md R81 to R83). -/

namespace Sys2Proof.Laws

/-- The format classifier reads the record's format off the encoded word. -/
def EncodeFormat.Statement (i : Instr) : Prop := formatOf (encode i) = i.format

theorem formatOf_encodeR (k : BitVec 6) (f : RFields) : formatOf (encodeR k f) = .r := by
  simp [formatOf]

theorem formatOf_encodeI (k : BitVec 6) (f : IFields) (h : k ≠ 0x00#6 ∧ k ≠ 0x02#6 ∧ k ≠ 0x03#6) :
    formatOf (encodeI k f) = .i := by
  simp [formatOf, h]

theorem formatOf_encodeJ (k : BitVec 6) (f : JFields) (h : k = 0x02#6 ∨ k = 0x03#6) :
    formatOf (encodeJ k f) = .j := by
  rcases h with rfl | rfl <;> simp [formatOf]

theorem EncodeFormat.sll (f : RFields) : EncodeFormat.Statement (.sll f) := formatOf_encodeR _ f
theorem EncodeFormat.srl (f : RFields) : EncodeFormat.Statement (.srl f) := formatOf_encodeR _ f
theorem EncodeFormat.sra (f : RFields) : EncodeFormat.Statement (.sra f) := formatOf_encodeR _ f
theorem EncodeFormat.jr (f : RFields) : EncodeFormat.Statement (.jr f) := formatOf_encodeR _ f
theorem EncodeFormat.jalr (f : RFields) : EncodeFormat.Statement (.jalr f) := formatOf_encodeR _ f
theorem EncodeFormat.syscall (f : RFields) : EncodeFormat.Statement (.syscall f) := formatOf_encodeR _ f
theorem EncodeFormat.mfhi (f : RFields) : EncodeFormat.Statement (.mfhi f) := formatOf_encodeR _ f
theorem EncodeFormat.mthi (f : RFields) : EncodeFormat.Statement (.mthi f) := formatOf_encodeR _ f
theorem EncodeFormat.mflo (f : RFields) : EncodeFormat.Statement (.mflo f) := formatOf_encodeR _ f
theorem EncodeFormat.mtlo (f : RFields) : EncodeFormat.Statement (.mtlo f) := formatOf_encodeR _ f
theorem EncodeFormat.mult (f : RFields) : EncodeFormat.Statement (.mult f) := formatOf_encodeR _ f
theorem EncodeFormat.multu (f : RFields) : EncodeFormat.Statement (.multu f) := formatOf_encodeR _ f
theorem EncodeFormat.div (f : RFields) : EncodeFormat.Statement (.div f) := formatOf_encodeR _ f
theorem EncodeFormat.divu (f : RFields) : EncodeFormat.Statement (.divu f) := formatOf_encodeR _ f
theorem EncodeFormat.add (f : RFields) : EncodeFormat.Statement (.add f) := formatOf_encodeR _ f
theorem EncodeFormat.addu (f : RFields) : EncodeFormat.Statement (.addu f) := formatOf_encodeR _ f
theorem EncodeFormat.sub (f : RFields) : EncodeFormat.Statement (.sub f) := formatOf_encodeR _ f
theorem EncodeFormat.subu (f : RFields) : EncodeFormat.Statement (.subu f) := formatOf_encodeR _ f
theorem EncodeFormat.and (f : RFields) : EncodeFormat.Statement (.and f) := formatOf_encodeR _ f
theorem EncodeFormat.or (f : RFields) : EncodeFormat.Statement (.or f) := formatOf_encodeR _ f
theorem EncodeFormat.xor (f : RFields) : EncodeFormat.Statement (.xor f) := formatOf_encodeR _ f
theorem EncodeFormat.nor (f : RFields) : EncodeFormat.Statement (.nor f) := formatOf_encodeR _ f
theorem EncodeFormat.slt (f : RFields) : EncodeFormat.Statement (.slt f) := formatOf_encodeR _ f
theorem EncodeFormat.beq (f : IFields) : EncodeFormat.Statement (.beq f) := formatOf_encodeI _ f (by decide)
theorem EncodeFormat.bne (f : IFields) : EncodeFormat.Statement (.bne f) := formatOf_encodeI _ f (by decide)
theorem EncodeFormat.blez (f : IFields) : EncodeFormat.Statement (.blez f) := formatOf_encodeI _ f (by decide)
theorem EncodeFormat.bgtz (f : IFields) : EncodeFormat.Statement (.bgtz f) := formatOf_encodeI _ f (by decide)
theorem EncodeFormat.addi (f : IFields) : EncodeFormat.Statement (.addi f) := formatOf_encodeI _ f (by decide)
theorem EncodeFormat.addiu (f : IFields) : EncodeFormat.Statement (.addiu f) := formatOf_encodeI _ f (by decide)
theorem EncodeFormat.slti (f : IFields) : EncodeFormat.Statement (.slti f) := formatOf_encodeI _ f (by decide)
theorem EncodeFormat.andi (f : IFields) : EncodeFormat.Statement (.andi f) := formatOf_encodeI _ f (by decide)
theorem EncodeFormat.ori (f : IFields) : EncodeFormat.Statement (.ori f) := formatOf_encodeI _ f (by decide)
theorem EncodeFormat.xori (f : IFields) : EncodeFormat.Statement (.xori f) := formatOf_encodeI _ f (by decide)
theorem EncodeFormat.lui (f : IFields) : EncodeFormat.Statement (.lui f) := formatOf_encodeI _ f (by decide)
theorem EncodeFormat.lb (f : IFields) : EncodeFormat.Statement (.lb f) := formatOf_encodeI _ f (by decide)
theorem EncodeFormat.lh (f : IFields) : EncodeFormat.Statement (.lh f) := formatOf_encodeI _ f (by decide)
theorem EncodeFormat.lw (f : IFields) : EncodeFormat.Statement (.lw f) := formatOf_encodeI _ f (by decide)
theorem EncodeFormat.sb (f : IFields) : EncodeFormat.Statement (.sb f) := formatOf_encodeI _ f (by decide)
theorem EncodeFormat.sh (f : IFields) : EncodeFormat.Statement (.sh f) := formatOf_encodeI _ f (by decide)
theorem EncodeFormat.sw (f : IFields) : EncodeFormat.Statement (.sw f) := formatOf_encodeI _ f (by decide)
theorem EncodeFormat.bltz (f : IFields) : EncodeFormat.Statement (.bltz f) := formatOf_encodeI _ f (by decide)
theorem EncodeFormat.bgez (f : IFields) : EncodeFormat.Statement (.bgez f) := formatOf_encodeI _ f (by decide)
theorem EncodeFormat.j (f : JFields) : EncodeFormat.Statement (.j f) := formatOf_encodeJ _ f (by decide)
theorem EncodeFormat.jal (f : JFields) : EncodeFormat.Statement (.jal f) := formatOf_encodeJ _ f (by decide)

end Sys2Proof.Laws
end

