-- ==== Sys2Proof/Laws/Segments.lean ====
section
/-! SUPPORT. What R51 gives: an aligned word of four addresses lies wholly inside each segment or wholly outside. -/

namespace Sys2Proof

theorem SegmentMap.segment_wf {m : SegmentMap} (h : m.wf = true) (n : SegmentName) : (m.segment n).wf = true := by
  simp only [SegmentMap.wf, Bool.and_eq_true] at h
  cases n <;> simp [SegmentMap.segment, h]

/-- Addresses of one aligned group of four are in the same segments. -/
theorem Segment.contains_of_group {g : Segment} (hg : g.wf = true) {a b : Word}
    (h : a.toNat / 4 = b.toNat / 4) : g.contains a = g.contains b := by
  simp only [Segment.wf, Bool.and_eq_true, beq_iff_eq, decide_eq_true_eq] at hg
  obtain ⟨⟨h1, h2⟩, h3⟩ := hg
  unfold Segment.contains
  congr 1 <;> rw [decide_eq_decide] <;> omega

theorem SegmentMap.seg_of_group {m : SegmentMap} (hm : m.wf = true) {a b : Word}
    (h : a.toNat / 4 = b.toNat / 4) : m.seg a = m.seg b := by
  unfold SegmentMap.seg
  congr 1
  funext n
  exact Segment.contains_of_group (SegmentMap.segment_wf hm n) h

theorem Config.mapped_of_group {c : Config} (hc : c.wf = true) {a b : Word}
    (h : a.toNat / 4 = b.toNat / 4) : c.mapped a = c.mapped b := by
  unfold Config.mapped
  rw [SegmentMap.seg_of_group hc h]

/-- The bytes of an aligned word are one group. -/
theorem toNat_add_of_aligned {a : Word} (h : a.toNat % 4 = 0) {k : Nat} (hk : k < 4) :
    (a + BitVec.ofNat 32 k).toNat = a.toNat + k := by
  have := a.isLt
  rw [BitVec.toNat_add, BitVec.toNat_ofNat]
  omega

end Sys2Proof
end

