-- ==== Sys2Proof/Tests/Slice0.lean ====
section
/-! SUPPORT. Smoke tests of the checks, words decoded, single steps, and for every obligation with hypotheses a
concrete case that meets them. Expected values are those of 95_test_vectors.md, or computed by hand from the rules
named; a word written in binary is read off the `encoding` string of its row of spec/opcode_table.json. -/

namespace Sys2Proof.Tests

open Sys2Proof Sys2Proof.Machine

/-! ### Ill-formed terms (30_encoding.md R87, 20_memory.md R51) -/

theorem test_wf_bltz_needs_rt_0 : Instr.wf (.bltz { rs := 4#5, rt := 2#5, imm := 4#16 }) = false := by decide
theorem test_wf_bltz_is_not_bgez : Instr.wf (.bltz { rs := 4#5, rt := 1#5, imm := 4#16 }) = false := by decide
theorem test_wf_bgez_needs_rt_1 : Instr.wf (.bgez { rs := 4#5, rt := 0#5, imm := 4#16 }) = false := by decide
theorem test_wf_bgez : Instr.wf (.bgez { rs := 4#5, rt := 1#5, imm := 4#16 }) = true := by decide

/-- R51 (b): a base that is no multiple of 4. -/
theorem test_wf_segment_base : Segment.wf { base := 0x00400002#32, size := 16 } = false := by decide
/-- R51 (b): a size that is no multiple of 4. -/
theorem test_wf_segment_size : Segment.wf { base := 0x00400000#32, size := 18 } = false := by decide
/-- R51 (c): a range that passes the end of the address space; one that ends there is allowed. -/
theorem test_wf_segment_end : Segment.wf { base := 0xFFFFFFF0#32, size := 20 } = false ∧
    Segment.wf { base := 0xFFFFFFF0#32, size := 16 } = true := by decide
/-- R51 (a): DATA overlapping TEXT by one word; a map whose DATA begins where TEXT ends is allowed. -/
theorem test_wf_map_overlap :
    SegmentMap.wf { SegmentMap.default with data := { base := 0x004FFFFC#32, size := 16 } } = false ∧
    SegmentMap.wf { SegmentMap.default with data := { base := 0x00500000#32, size := 16 } } = true := by decide

/-! ### Decoding (30_encoding.md R82, R85 to R88) -/

theorem test_decode_sll : decode 0b000000_01001_10010_01011_10101_000000#32 =
    .instr (.sll { rs := 9#5, rt := 18#5, rd := 11#5, shamt := 21#5 }) := by decide
theorem test_decode_srl : decode 0b000000_01001_10010_01011_10101_000010#32 =
    .instr (.srl { rs := 9#5, rt := 18#5, rd := 11#5, shamt := 21#5 }) := by decide
theorem test_decode_sra : decode 0b000000_01001_10010_01011_10101_000011#32 =
    .instr (.sra { rs := 9#5, rt := 18#5, rd := 11#5, shamt := 21#5 }) := by decide
theorem test_decode_jr : decode 0b000000_01001_10010_01011_10101_001000#32 =
    .instr (.jr { rs := 9#5, rt := 18#5, rd := 11#5, shamt := 21#5 }) := by decide
theorem test_decode_jalr : decode 0b000000_01001_10010_01011_10101_001001#32 =
    .instr (.jalr { rs := 9#5, rt := 18#5, rd := 11#5, shamt := 21#5 }) := by decide
theorem test_decode_syscall : decode 0b000000_01001_10010_01011_10101_001100#32 =
    .instr (.syscall { rs := 9#5, rt := 18#5, rd := 11#5, shamt := 21#5 }) := by decide
theorem test_decode_mfhi : decode 0b000000_01001_10010_01011_10101_010000#32 =
    .instr (.mfhi { rs := 9#5, rt := 18#5, rd := 11#5, shamt := 21#5 }) := by decide
theorem test_decode_mthi : decode 0b000000_01001_10010_01011_10101_010001#32 =
    .instr (.mthi { rs := 9#5, rt := 18#5, rd := 11#5, shamt := 21#5 }) := by decide
theorem test_decode_mflo : decode 0b000000_01001_10010_01011_10101_010010#32 =
    .instr (.mflo { rs := 9#5, rt := 18#5, rd := 11#5, shamt := 21#5 }) := by decide
theorem test_decode_mtlo : decode 0b000000_01001_10010_01011_10101_010011#32 =
    .instr (.mtlo { rs := 9#5, rt := 18#5, rd := 11#5, shamt := 21#5 }) := by decide
theorem test_decode_mult : decode 0b000000_01001_10010_01011_10101_011000#32 =
    .instr (.mult { rs := 9#5, rt := 18#5, rd := 11#5, shamt := 21#5 }) := by decide
theorem test_decode_multu : decode 0b000000_01001_10010_01011_10101_011001#32 =
    .instr (.multu { rs := 9#5, rt := 18#5, rd := 11#5, shamt := 21#5 }) := by decide
theorem test_decode_div : decode 0b000000_01001_10010_01011_10101_011010#32 =
    .instr (.div { rs := 9#5, rt := 18#5, rd := 11#5, shamt := 21#5 }) := by decide
theorem test_decode_divu : decode 0b000000_01001_10010_01011_10101_011011#32 =
    .instr (.divu { rs := 9#5, rt := 18#5, rd := 11#5, shamt := 21#5 }) := by decide
theorem test_decode_add : decode 0b000000_01001_10010_01011_10101_100000#32 =
    .instr (.add { rs := 9#5, rt := 18#5, rd := 11#5, shamt := 21#5 }) := by decide
theorem test_decode_addu : decode 0b000000_01001_10010_01011_10101_100001#32 =
    .instr (.addu { rs := 9#5, rt := 18#5, rd := 11#5, shamt := 21#5 }) := by decide
theorem test_decode_sub : decode 0b000000_01001_10010_01011_10101_100010#32 =
    .instr (.sub { rs := 9#5, rt := 18#5, rd := 11#5, shamt := 21#5 }) := by decide
theorem test_decode_subu : decode 0b000000_01001_10010_01011_10101_100011#32 =
    .instr (.subu { rs := 9#5, rt := 18#5, rd := 11#5, shamt := 21#5 }) := by decide
theorem test_decode_and : decode 0b000000_01001_10010_01011_10101_100100#32 =
    .instr (.and { rs := 9#5, rt := 18#5, rd := 11#5, shamt := 21#5 }) := by decide
theorem test_decode_or : decode 0b000000_01001_10010_01011_10101_100101#32 =
    .instr (.or { rs := 9#5, rt := 18#5, rd := 11#5, shamt := 21#5 }) := by decide
theorem test_decode_xor : decode 0b000000_01001_10010_01011_10101_100110#32 =
    .instr (.xor { rs := 9#5, rt := 18#5, rd := 11#5, shamt := 21#5 }) := by decide
theorem test_decode_nor : decode 0b000000_01001_10010_01011_10101_100111#32 =
    .instr (.nor { rs := 9#5, rt := 18#5, rd := 11#5, shamt := 21#5 }) := by decide
theorem test_decode_slt : decode 0b000000_01001_10010_01011_10101_101010#32 =
    .instr (.slt { rs := 9#5, rt := 18#5, rd := 11#5, shamt := 21#5 }) := by decide
theorem test_decode_beq : decode 0b000100_01001_10010_1000000000000001#32 =
    .instr (.beq { rs := 9#5, rt := 18#5, imm := 0x8001#16 }) := by decide
theorem test_decode_bne : decode 0b000101_01001_10010_1000000000000001#32 =
    .instr (.bne { rs := 9#5, rt := 18#5, imm := 0x8001#16 }) := by decide
theorem test_decode_blez : decode 0b000110_01001_10010_1000000000000001#32 =
    .instr (.blez { rs := 9#5, rt := 18#5, imm := 0x8001#16 }) := by decide
theorem test_decode_bgtz : decode 0b000111_01001_10010_1000000000000001#32 =
    .instr (.bgtz { rs := 9#5, rt := 18#5, imm := 0x8001#16 }) := by decide
theorem test_decode_addi : decode 0b001000_01001_10010_1000000000000001#32 =
    .instr (.addi { rs := 9#5, rt := 18#5, imm := 0x8001#16 }) := by decide
theorem test_decode_addiu : decode 0b001001_01001_10010_1000000000000001#32 =
    .instr (.addiu { rs := 9#5, rt := 18#5, imm := 0x8001#16 }) := by decide
theorem test_decode_slti : decode 0b001010_01001_10010_1000000000000001#32 =
    .instr (.slti { rs := 9#5, rt := 18#5, imm := 0x8001#16 }) := by decide
theorem test_decode_andi : decode 0b001100_01001_10010_1000000000000001#32 =
    .instr (.andi { rs := 9#5, rt := 18#5, imm := 0x8001#16 }) := by decide
theorem test_decode_ori : decode 0b001101_01001_10010_1000000000000001#32 =
    .instr (.ori { rs := 9#5, rt := 18#5, imm := 0x8001#16 }) := by decide
theorem test_decode_xori : decode 0b001110_01001_10010_1000000000000001#32 =
    .instr (.xori { rs := 9#5, rt := 18#5, imm := 0x8001#16 }) := by decide
theorem test_decode_lui : decode 0b001111_01001_10010_1000000000000001#32 =
    .instr (.lui { rs := 9#5, rt := 18#5, imm := 0x8001#16 }) := by decide
theorem test_decode_lb : decode 0b100000_01001_10010_1000000000000001#32 =
    .instr (.lb { rs := 9#5, rt := 18#5, imm := 0x8001#16 }) := by decide
theorem test_decode_lh : decode 0b100001_01001_10010_1000000000000001#32 =
    .instr (.lh { rs := 9#5, rt := 18#5, imm := 0x8001#16 }) := by decide
theorem test_decode_lw : decode 0b100011_01001_10010_1000000000000001#32 =
    .instr (.lw { rs := 9#5, rt := 18#5, imm := 0x8001#16 }) := by decide
theorem test_decode_sb : decode 0b101000_01001_10010_1000000000000001#32 =
    .instr (.sb { rs := 9#5, rt := 18#5, imm := 0x8001#16 }) := by decide
theorem test_decode_sh : decode 0b101001_01001_10010_1000000000000001#32 =
    .instr (.sh { rs := 9#5, rt := 18#5, imm := 0x8001#16 }) := by decide
theorem test_decode_sw : decode 0b101011_01001_10010_1000000000000001#32 =
    .instr (.sw { rs := 9#5, rt := 18#5, imm := 0x8001#16 }) := by decide
theorem test_decode_bltz : decode 0b000001_01001_00000_1000000000000001#32 =
    .instr (.bltz { rs := 9#5, rt := 0#5, imm := 0x8001#16 }) := by decide
theorem test_decode_bgez : decode 0b000001_01001_00001_1000000000000001#32 =
    .instr (.bgez { rs := 9#5, rt := 1#5, imm := 0x8001#16 }) := by decide
theorem test_decode_j : decode 0b000010_10000000000000000000000001#32 =
    .instr (.j { target := 0x2000001#26 }) := by decide
theorem test_decode_jal : decode 0b000011_10000000000000000000000001#32 =
    .instr (.jal { target := 0x2000001#26 }) := by decide

/-- R90 and 95_test_vectors.md 2.1: words of no row. -/
theorem test_decode_unmapped_funct : decode 0x0000000D#32 = .reject .unmappedFunct ∧
    decode 0x0000000F#32 = .reject .unmappedFunct ∧ decode 0x00000001#32 = .reject .unmappedFunct ∧
    decode 0x0000002B#32 = .reject .unmappedFunct := by decide
theorem test_decode_unmapped_rt : decode 0x04020000#32 = .reject .unmappedRegimm ∧
    decode 0x04110000#32 = .reject .unmappedRegimm := by decide
theorem test_decode_unmapped_opcode : decode 0x2C000000#32 = .reject .unmappedOpcode ∧
    decode 0x40000000#32 = .reject .unmappedOpcode ∧ decode 0x90000000#32 = .reject .unmappedOpcode ∧
    decode 0xFC000000#32 = .reject .unmappedOpcode ∧ decode 0xFFFFFFFF#32 = .reject .unmappedOpcode := by decide
/-- W8 of 95_test_vectors.md (R81). -/
theorem test_format : formatOf 0x00000020#32 = .r ∧ formatOf 0x08000000#32 = .j ∧ formatOf 0x0C000000#32 = .j ∧
    formatOf 0x20000000#32 = .i := by decide
/-- R53, R80: the first byte is the least significant, and fewer than four bytes are no instruction. -/
theorem test_decode_bytes : decodeBytes [0x20#8, 0x50#8, 0x09#8, 0x01#8] = decode 0x01095020#32 ∧
    decodeBytes [0x20#8, 0x50#8, 0x09#8] = .reject .tooFewBytes := by decide

/-! ### Single steps, by default from reset with some registers set and the word at the PC -/

/-- The reset state with some general registers set by the host. -/
def start (rs : List (Reg × Word)) : State := rs.foldl (fun s p => s.overrideReg p.1 p.2) State.reset

/-- The state with another PC in both copies. -/
def atPc (pc : Word) (s : State) : State :=
  { s with current := { s.current with pc := pc }, next := { s.next with pc := pc } }

/-- The state with HI = 0x11 and LO = 0x22, as the divide vectors have it. -/
def hiLo (s : State) : State := (s.overrideHi 0x11#32).overrideLo 0x22#32

/-- The state with a word in data memory. -/
def word (a v : Word) (s : State) : State := s.memWrite a .word v

/-- The state under another configuration. -/
def under (c : Config) (s : State) : State := { s with config := c }

/-- What is seen of the state after one step that runs a word, if the step answers a next state. -/
def after {α : Type} (s : State) (w : Word) (see : State → α) : Option α :=
  match step (s.placeWord w) with
  | .next t => some (see t)
  | .fault _ => none
  | .refused _ => none

-- 95_test_vectors.md 2.2
theorem test_add :
    after (start [(8#5, 0x5#32), (9#5, 0x3#32)]) 0x01095020#32
      (fun t => (t.reg 10#5, t.pc)) =
    some (0x00000008#32, 0x00400004#32) := by decide
theorem test_add_overflow_wraps :
    after (start [(8#5, 0x7FFFFFFF#32), (9#5, 0x1#32)]) 0x01095020#32
      (fun t => (t.reg 10#5, t.pc)) =
    some (0x80000000#32, 0x00400004#32) := by decide
theorem test_addu_wraps :
    after (start [(1#5, 0xFFFFFFFF#32), (2#5, 0x2#32)]) 0x00221821#32
      (fun t => (t.reg 3#5, t.pc)) =
    some (0x00000001#32, 0x00400004#32) := by decide
theorem test_addu_source_is_destination :
    after (start [(8#5, 0x3#32)]) 0x01084021#32
      (fun t => (t.reg 8#5, t.pc)) =
    some (0x00000006#32, 0x00400004#32) := by decide
theorem test_sub_overflow_wraps :
    after (start [(1#5, 0x80000000#32), (2#5, 0x1#32)]) 0x00221822#32
      (fun t => (t.reg 3#5, t.pc)) =
    some (0x7FFFFFFF#32, 0x00400004#32) := by decide
theorem test_subu :
    after (start [(2#5, 0x1#32)]) 0x00221823#32
      (fun t => (t.reg 3#5, t.pc)) =
    some (0xFFFFFFFF#32, 0x00400004#32) := by decide
theorem test_and :
    after (start [(1#5, 0xF0F0F0F0#32), (2#5, 0xFF00FF00#32)]) 0x00221824#32
      (fun t => (t.reg 3#5, t.pc)) =
    some (0xF000F000#32, 0x00400004#32) := by decide
theorem test_or :
    after (start [(1#5, 0xF0F0F0F0#32), (2#5, 0xF0F0000#32)]) 0x00221825#32
      (fun t => (t.reg 3#5, t.pc)) =
    some (0xFFFFF0F0#32, 0x00400004#32) := by decide
theorem test_xor :
    after (start [(1#5, 0xFFFF0000#32), (2#5, 0xFF00FF00#32)]) 0x00221826#32
      (fun t => (t.reg 3#5, t.pc)) =
    some (0x00FFFF00#32, 0x00400004#32) := by decide
theorem test_nor :
    after (start []) 0x00221827#32
      (fun t => (t.reg 3#5, t.pc)) =
    some (0xFFFFFFFF#32, 0x00400004#32) := by decide
theorem test_slt_signed :
    after (start [(1#5, 0xFFFFFFFF#32), (2#5, 0x1#32)]) 0x0022182A#32
      (fun t => (t.reg 3#5, t.pc)) =
    some (0x00000001#32, 0x00400004#32) := by decide
theorem test_slt_not_less :
    after (start [(3#5, 0x9#32), (1#5, 0x1#32), (2#5, 0x80000000#32)]) 0x0022182A#32
      (fun t => (t.reg 3#5, t.pc)) =
    some (0x00000000#32, 0x00400004#32) := by decide

-- 95_test_vectors.md 2.3
theorem test_addi_overflow_wraps :
    after (start [(1#5, 0x7FFFFFFF#32)]) 0x20220001#32
      (fun t => (t.reg 2#5, t.pc)) =
    some (0x80000000#32, 0x00400004#32) := by decide
theorem test_addi_negative :
    after (start []) 0x2022FFFF#32
      (fun t => (t.reg 2#5, t.pc)) =
    some (0xFFFFFFFF#32, 0x00400004#32) := by decide
theorem test_addiu :
    after (start [(1#5, 0x10000#32)]) 0x24228000#32
      (fun t => (t.reg 2#5, t.pc)) =
    some (0x00008000#32, 0x00400004#32) := by decide
theorem test_slti_less :
    after (start [(1#5, 0xFFFFFFFE#32)]) 0x2822FFFF#32
      (fun t => (t.reg 2#5, t.pc)) =
    some (0x00000001#32, 0x00400004#32) := by decide
theorem test_slti_not_less :
    after (start [(2#5, 0x9#32)]) 0x2822FFFF#32
      (fun t => (t.reg 2#5, t.pc)) =
    some (0x00000000#32, 0x00400004#32) := by decide
theorem test_andi :
    after (start [(1#5, 0xFFFFFFFF#32)]) 0x3022FFFF#32
      (fun t => (t.reg 2#5, t.pc)) =
    some (0x0000FFFF#32, 0x00400004#32) := by decide
theorem test_ori :
    after (start [(1#5, 0x12340000#32)]) 0x34228001#32
      (fun t => (t.reg 2#5, t.pc)) =
    some (0x12348001#32, 0x00400004#32) := by decide
theorem test_xori :
    after (start [(1#5, 0xFF00#32)]) 0x3822FFFF#32
      (fun t => (t.reg 2#5, t.pc)) =
    some (0x000000FF#32, 0x00400004#32) := by decide
theorem test_lui :
    after (start []) 0x3C021001#32
      (fun t => (t.reg 2#5, t.pc)) =
    some (0x10010000#32, 0x00400004#32) := by decide

-- 95_test_vectors.md 2.4
theorem test_sll :
    after (start [(1#5, 0x80000001#32)]) 0x00011100#32
      (fun t => (t.reg 2#5, t.pc)) =
    some (0x00000010#32, 0x00400004#32) := by decide
theorem test_srl_ignores_rs :
    after (start [(1#5, 0x80000010#32)]) 0x00211102#32
      (fun t => (t.reg 2#5, t.pc)) =
    some (0x08000001#32, 0x00400004#32) := by decide
theorem test_sra :
    after (start [(1#5, 0x80000010#32)]) 0x00011103#32
      (fun t => (t.reg 2#5, t.pc)) =
    some (0xF8000001#32, 0x00400004#32) := by decide
theorem test_sra_by_31 :
    after (start [(1#5, 0x80000000#32)]) 0x000117C3#32
      (fun t => (t.reg 2#5, t.pc)) =
    some (0xFFFFFFFF#32, 0x00400004#32) := by decide
/-- R139 with SHIFT_SOURCE = rs: `sll $3, $1, 4` with rs = 2 shifts register 2. -/
theorem test_sll_shifts_rs_under_the_parameter :
    after (under { Config.default with shiftSource := .rs } (start [(1#5, 3#32), (2#5, 5#32)])) 0x00411900#32
      (fun t => t.reg 3#5) =
    some 0x00000050#32 := by decide

-- 95_test_vectors.md 2.5
theorem test_mult_most_negative :
    after (start [(2#5, 0x80000000#32), (3#5, 0x80000000#32)]) 0x00430018#32
      (fun t => (t.hi, t.lo, t.pc)) =
    some (0x40000000#32, 0x00000000#32, 0x00400004#32) := by decide
theorem test_mult_signed :
    after (start [(2#5, 0xFFFFFFFF#32), (3#5, 0x2#32)]) 0x00430018#32
      (fun t => (t.hi, t.lo, t.pc)) =
    some (0xFFFFFFFF#32, 0xFFFFFFFE#32, 0x00400004#32) := by decide
theorem test_multu :
    after (start [(2#5, 0xFFFFFFFF#32), (3#5, 0x2#32)]) 0x00430019#32
      (fun t => (t.hi, t.lo, t.pc)) =
    some (0x00000001#32, 0xFFFFFFFE#32, 0x00400004#32) := by decide
theorem test_multu_largest :
    after (start [(2#5, 0xFFFFFFFF#32), (3#5, 0xFFFFFFFF#32)]) 0x00430019#32
      (fun t => (t.hi, t.lo, t.pc)) =
    some (0xFFFFFFFE#32, 0x00000001#32, 0x00400004#32) := by decide
theorem test_div_truncates :
    after (start [(2#5, 0xFFFFFFF9#32), (3#5, 0x2#32)]) 0x0043001A#32
      (fun t => (t.hi, t.lo, t.pc)) =
    some (0xFFFFFFFF#32, 0xFFFFFFFD#32, 0x00400004#32) := by decide
theorem test_divu :
    after (start [(2#5, 0xFFFFFFF9#32), (3#5, 0x2#32)]) 0x0043001B#32
      (fun t => (t.hi, t.lo, t.pc)) =
    some (0x00000001#32, 0x7FFFFFFC#32, 0x00400004#32) := by decide
theorem test_div_by_zero :
    after (hiLo (start [(2#5, 7#32)])) 0x0043001A#32
      (fun t => (t.hi, t.lo, t.pc, t.count, t.report)) =
    some (0x11#32, 0x22#32, 0x00400000#32, 0,
      some { reason := .divideByZero, pc := 0x00400000#32, word := some 0x0043001A#32, addr := none }) := by decide
/-- R35, R91, R192: rd = 1 and shamt = 31 are ignored, but the report holds the raw word. -/
theorem test_divu_by_zero_reports_the_raw_word :
    after (hiLo (start [(2#5, 5#32)])) 0x00430FDB#32
      (fun t => (t.hi, t.lo, t.report)) =
    some (0x11#32, 0x22#32,
      some { reason := .divideByZero, pc := 0x00400000#32, word := some 0x00430FDB#32, addr := none }) := by decide
theorem test_mfhi :
    after ((start []).overrideHi 0xABCD#32) 0x00002010#32
      (fun t => (t.reg 4#5, t.hi)) =
    some (0x0000ABCD#32, 0x0000ABCD#32) := by decide
theorem test_mflo :
    after ((start []).overrideLo 0xFFFFFFFE#32) 0x00002012#32
      (fun t => (t.reg 4#5, t.lo)) =
    some (0xFFFFFFFE#32, 0xFFFFFFFE#32) := by decide
theorem test_mthi :
    after (hiLo (start [(5#5, 0x1234#32)])) 0x00A00011#32
      (fun t => (t.hi, t.lo)) =
    some (0x1234#32, 0x22#32) := by decide
theorem test_mtlo :
    after (hiLo (start [(5#5, 0x1234#32)])) 0x00A00013#32
      (fun t => (t.hi, t.lo)) =
    some (0x11#32, 0x1234#32) := by decide

-- 95_test_vectors.md 2.6
theorem test_lw_negative_displacement :
    after (word 0x10010004#32 0x11223344#32 (start [(1#5, 0x10010008#32)])) 0x8C22FFFC#32
      (fun t => t.reg 2#5) =
    some 0x11223344#32 := by decide
theorem test_lb_sign_extends :
    after (word 0x10010004#32 0x80112233#32 (start [(1#5, 0x10010000#32)])) 0x80220007#32
      (fun t => t.reg 2#5) =
    some 0xFFFFFF80#32 := by decide
theorem test_lh_sign_extends :
    after (word 0x10010004#32 0x80112233#32 (start [(1#5, 0x10010000#32)])) 0x84220006#32
      (fun t => t.reg 2#5) =
    some 0xFFFF8011#32 := by decide
theorem test_sw_out_of_range_is_ignored :
    after (start [(1#5, 0x20000000#32), (2#5, 0x5#32)]) 0xAC220000#32
      (fun t => (t.mem == (State.reset.placeWord 0xAC220000#32).mem, t.count, t.run)) =
    some (true, 1, .running) := by decide
theorem test_lw_misaligned :
    after (start [(1#5, 0x10010000#32)]) 0x8C220002#32
      (fun t => (t.pc, t.count, t.report)) =
    some (0x00400000#32, 0,
      some { reason := .alignmentViolation, pc := 0x00400000#32, word := some 0x8C220002#32, addr := some 0x10010002#32 }) := by decide
theorem test_sw :
    after (start [(1#5, 0x10010000#32), (2#5, 0xAABBCCDD#32)]) 0xAC220000#32
      (fun t => [0x10010000#32, 0x10010001#32, 0x10010002#32, 0x10010003#32].map t.loadByte) =
    some [0xDD#8, 0xCC#8, 0xBB#8, 0xAA#8] := by decide
theorem test_sb :
    after (word 0x10010000#32 0xFFFFFFFF#32 (start [(1#5, 0x10010000#32), (2#5, 0x12345678#32)])) 0xA0220001#32
      (fun t => [0x10010000#32, 0x10010001#32, 0x10010002#32, 0x10010003#32].map t.loadByte) =
    some [0xFF#8, 0x78#8, 0xFF#8, 0xFF#8] := by decide
theorem test_sh :
    after (word 0x10010000#32 0xFFFFFFFF#32 (start [(1#5, 0x10010000#32), (2#5, 0x12345678#32)])) 0xA4220002#32
      (fun t => [0x10010000#32, 0x10010001#32, 0x10010002#32, 0x10010003#32].map t.loadByte) =
    some [0xFF#8, 0xFF#8, 0x78#8, 0x56#8] := by decide
/-- R55, R56: `sh $2, 1($1)`. -/
theorem test_sh_misaligned :
    after (word 0x10010000#32 0xFFFFFFFF#32 (start [(1#5, 0x10010000#32)])) 0xA4220001#32
      (fun t => (t.loadByte 0x10010001#32, t.run, t.report.bind HaltReport.addr)) =
    some (0xFF#8, .halted, some 0x10010001#32) := by decide
/-- R56 with MISALIGNED_POLICY = ConsecutiveBytes: the last byte of DATA, then a byte in no segment. -/
theorem test_lh_by_consecutive_bytes :
    after (under { Config.default with misalignedPolicy := .consecutiveBytes } (word 0x1010FFFC#32 0x91223344#32 (start [(1#5, 0x1010FFFF#32)]))) 0x84220000#32
      (fun t => t.reg 2#5) =
    some 0x00000091#32 := by decide
/-- R158 with EA_BASE_MODE = DataRelative: `lb $2, -1($1)`. -/
theorem test_lb_relative_to_data :
    after (under { Config.default with eaBaseMode := .dataRelative } (word 0x10010004#32 0x80112233#32 (start [(1#5, 8#32)]))) 0x8022FFFF#32
      (fun t => t.reg 2#5) =
    some 0xFFFFFF80#32 := by decide

-- 95_test_vectors.md 2.7
theorem test_beq_taken :
    after (start [(4#5, 0x7#32), (5#5, 0x7#32)]) 0x10850002#32
      (fun t => t.pc) =
    some 0x0040000C#32 := by decide
theorem test_beq_not_taken :
    after (start [(4#5, 0x7#32), (5#5, 0x8#32)]) 0x10850002#32
      (fun t => t.pc) =
    some 0x00400004#32 := by decide
theorem test_bne_backward :
    after (atPc 0x00400010#32 (start [(4#5, 0x1#32), (5#5, 0x2#32)])) 0x1485FFFE#32
      (fun t => t.pc) =
    some 0x0040000C#32 := by decide
theorem test_bne_not_taken :
    after (atPc 0x00400010#32 (start [(4#5, 0x2#32), (5#5, 0x2#32)])) 0x1485FFFE#32
      (fun t => t.pc) =
    some 0x00400014#32 := by decide
theorem test_blez_zero :
    after (start []) 0x18800003#32
      (fun t => t.pc) =
    some 0x00400010#32 := by decide
theorem test_blez_positive :
    after (start [(4#5, 0x1#32)]) 0x18800003#32
      (fun t => t.pc) =
    some 0x00400004#32 := by decide
theorem test_bgtz_positive :
    after (start [(4#5, 0x1#32)]) 0x1C800003#32
      (fun t => t.pc) =
    some 0x00400010#32 := by decide
theorem test_bgtz_negative :
    after (start [(4#5, 0xFFFFFFFF#32)]) 0x1C800003#32
      (fun t => t.pc) =
    some 0x00400004#32 := by decide
theorem test_bltz_negative :
    after (start [(4#5, 0xFFFFFFFF#32)]) 0x04800004#32
      (fun t => t.pc) =
    some 0x00400014#32 := by decide
theorem test_bltz_zero :
    after (start []) 0x04800004#32
      (fun t => t.pc) =
    some 0x00400004#32 := by decide
theorem test_bgez_zero :
    after (start []) 0x04810004#32
      (fun t => t.pc) =
    some 0x00400014#32 := by decide
theorem test_bgez_negative :
    after (start [(4#5, 0x80000000#32)]) 0x04810004#32
      (fun t => t.pc) =
    some 0x00400004#32 := by decide
/-- The target-computation vector of 95_test_vectors.md 2.7: target arithmetic wraps. -/
theorem test_branch_target_wraps :
    (atPc 0xFFFFFF00#32 State.reset).branchTarget { rs := 0#5, rt := 0#5, imm := 0x7FFF#16 } = 0x0001FF00#32 := by
  decide
theorem test_j :
    after (start []) 0x08100010#32
      (fun t => t.pc) =
    some 0x00400040#32 := by decide
theorem test_j_keeps_the_upper_bits :
    after (atPc 0x80000000#32 (start [])) 0x08000004#32
      (fun t => t.pc) =
    some 0x80000010#32 := by decide
theorem test_jal :
    after (atPc 0x00400008#32 (start [])) 0x0C100040#32
      (fun t => (t.pc, t.reg 31#5)) =
    some (0x00400100#32, 0x00400010#32) := by decide
theorem test_jr :
    after (start [(31#5, 0x400024#32)]) 0x03E00008#32
      (fun t => t.pc) =
    some 0x00400024#32 := by decide
theorem test_jalr_source_is_destination :
    after (atPc 0x00400004#32 (start [(9#5, 0x400080#32)])) 0x01204809#32
      (fun t => (t.pc, t.reg 9#5)) =
    some (0x00400080#32, 0x0040000C#32) := by decide
theorem test_jalr_discards_a_link_in_register_0 :
    after (atPc 0x00400004#32 (start [(9#5, 0x400080#32)])) 0x01200009#32
      (fun t => (t.pc, t.reg 0#5, t.reg 31#5)) =
    some (0x00400080#32, 0#32, 0#32) := by decide

-- 95_test_vectors.md 2.8 and 2.6 (fetch)
theorem test_syscall_halts :
    after (atPc 0x00400010#32 (start [(2#5, 10#32)])) 0x0000000C#32
      (fun t => (t.pc, t.count, t.run, t.report)) =
    some (0x00400014#32, 1, .halted,
      some { reason := .halt, pc := 0x00400010#32, word := some 0x0000000C#32, addr := none }) := by decide
theorem test_syscall_is_otherwise_a_no_op :
    after (start []) 0x0000000C#32
      (fun t => (t.pc, t.count, t.run, t.report)) =
    some (0x00400004#32, 1, .running, none) := by decide
/-- P5 of 95_test_vectors.md. -/
theorem test_decode_fault :
    after (start []) 0x0000000D#32
      (fun t => (t.pc, t.count, t.report)) =
    some (0x00400000#32, 0,
      some { reason := .decodeFault, pc := 0x00400000#32, word := some 0x0000000D#32, addr := none }) := by decide
/-- The misaligned fetch of 95_test_vectors.md 2.8. -/
theorem test_fetch_misaligned : step (atPc 0x00400042#32 State.reset) = .next
    { atPc 0x00400042#32 State.reset with
      run := .halted
      report := some
        { reason := .alignmentViolation, pc := 0x00400042#32, word := none, addr := some 0x00400042#32 } } := rfl
/-- The fetch from no segment of 95_test_vectors.md 2.6. -/
theorem test_fetch_outside_segments : step (atPc 0#32 State.reset) = .next
    { atPc 4#32 State.reset with count := 1 } := rfl
theorem test_halted_step_changes_nothing : step State.reset.stop = .next State.reset.stop := rfl
theorem test_host_stop : State.reset.stop = { State.reset with
    run := .halted
    report := some { reason := .userStop, pc := 0x00400000#32, word := none, addr := none } } := rfl
theorem test_host_cannot_set_register_0 : State.reset.overrideReg 0#5 5#32 = State.reset := rfl
/-- R71, R56: a misaligned `loadWord` is refused, an aligned one writes. -/
theorem test_load_word : State.reset.loadWord 0x10010002#32 1#32 = .fault (.loadWordMisaligned 0x10010002#32) ∧
    State.reset.loadWord 0x10010000#32 0x100#32 = .next { State.reset with mem := [(0x10010001, 1#8)] } :=
  ⟨rfl, rfl⟩
/-- R214: word k of the image lies at TEXT_BASE + 4k, and a word past the end of TEXT is dropped. -/
theorem test_image : (State.afterReset { Config.default with
    image := [0x11#32, 0x22#32, 0x33#32]
    segments := { SegmentMap.default with text := { base := 0x00400000#32, size := 8 } } }).mem =
    [(0x00400000, 0x11#8), (0x00400004, 0x22#8)] := by decide
/-- A row's word is placed where the next step fetches, least significant byte first. -/
theorem test_placed_word : (State.reset.withFetchWord 32 0x01095020).mem =
    [(0x00400000, 0x20#8), (0x00400001, 0x50#8), (0x00400002, 0x09#8), (0x00400003, 0x01#8)] := by decide
theorem test_table_word : decodeTableWord 32 0x01095020 =
    some (.add { rs := 8#5, rt := 9#5, rd := 10#5, shamt := 0#5 }) ∧ decodeTableWord 32 0x0000000D = none := by
  decide
/-! ### Witnesses: concrete cases that meet the hypotheses of the obligation each is named after -/

/-- A RUNNING state whose fields are checked one by one meets the invariant. -/
theorem running_inv (s : State) (h : s.config.wf = true ∧ s.next = s.current ∧ s.current.regs[0] = 0#32 ∧
    Memory.wf s.mem ∧ (∀ c ∈ s.mem, s.config.mapped (BitVec.ofNat 32 c.1) = true) ∧ s.run = .running ∧
    s.report = none) : s.Inv :=
  ⟨h.1, h.2.1, h.2.2.1, h.2.2.2.1, h.2.2.2.2.1, by simp [h.2.2.2.2.2.1, h.2.2.2.2.2.2],
    fun r hr => by rw [h.2.2.2.2.2.2] at hr; cases hr⟩

/-- A HALTED state whose fields are checked one by one meets the invariant. -/
theorem halted_inv (s : State) (r : HaltReport) (h : s.config.wf = true ∧ s.next = s.current ∧
    s.current.regs[0] = 0#32 ∧ Memory.wf s.mem ∧ (∀ c ∈ s.mem, s.config.mapped (BitVec.ofNat 32 c.1) = true) ∧
    s.run = .halted ∧ s.report = some r) (hr : r.Wf s.config s.pc) : s.Inv :=
  ⟨h.1, h.2.1, h.2.2.1, h.2.2.2.1, h.2.2.2.2.1, by simp [h.2.2.2.2.2.1, h.2.2.2.2.2.2],
    fun q hq => by rw [h.2.2.2.2.2.2] at hq; cases hq; exact hr⟩

/-- The state after a step, or the state itself where the step stops. -/
def next (s : State) : State :=
  match step s with
  | .next t => t
  | .fault _ => s
  | .refused _ => s

/-- `sw $2, 0($1)` at TEXT_BASE, to the first word of DATA (W6 of 95_test_vectors.md). -/
def storing : State := (start [(1#5, 0x10010000#32), (2#5, 0xCAFEF00D#32)]).placeWord 0xAC220000#32
/-- `sw $2, 4($1)` at TEXT_BASE, over the word after it, of `addiu $2, $0, 10`. -/
def patching : State := (start [(1#5, 0x00400000#32), (2#5, 0x2402000A#32)]).placeWord 0xAC220004#32
/-- `syscall` at TEXT_BASE with the exit service in register 2. -/
def exiting : State := (start [(2#5, 10#32)]).placeWord 0x0000000C#32
/-- `div $2, $3` at TEXT_BASE with a zero divisor. -/
def dividing : State := (start [(2#5, 7#32)]).placeWord 0x0043001A#32
/-- An unmapped word at TEXT_BASE. -/
def unmapped : State := State.reset.placeWord 0x0000000D#32
/-- `lw $2, 2($1)` at TEXT_BASE, misaligned. -/
def misaligned : State := (start [(1#5, 0x10010000#32)]).placeWord 0x8C220002#32
/-- A PC that is no multiple of 4. -/
def jumped : State := atPc 0x00400042#32 State.reset
/-- Misaligned accesses are performed. -/
def byBytes : Config := { Config.default with misalignedPolicy := .consecutiveBytes }

theorem test_inv_running : storing.Inv := running_inv _ (by decide)
theorem test_inv_halt : (next exiting).Inv :=
  halted_inv _ { reason := .halt, pc := 0x00400000#32, word := some 0x0000000C#32, addr := none } (by decide)
    ⟨⟨{ rs := 0#5, rt := 0#5, rd := 0#5, shamt := 0#5 }, by decide⟩, rfl, by decide⟩
theorem test_inv_user_stop : storing.stop.Inv :=
  halted_inv _ { reason := .userStop, pc := 0x00400000#32, word := none, addr := none } (by decide)
    ⟨rfl, rfl, by decide⟩
theorem test_inv_decode_fault : (next unmapped).Inv :=
  halted_inv _ { reason := .decodeFault, pc := 0x00400000#32, word := some 0x0000000D#32, addr := none } (by decide)
    ⟨⟨0x0000000D#32, .unmappedFunct, rfl, by decide⟩, rfl, by decide⟩
theorem test_inv_divide_by_zero : (next dividing).Inv :=
  halted_inv _ { reason := .divideByZero, pc := 0x00400000#32, word := some 0x0043001A#32, addr := none } (by decide)
    ⟨⟨{ rs := 2#5, rt := 3#5, rd := 0#5, shamt := 0#5 }, .inl (by decide)⟩, rfl, by decide⟩
theorem test_inv_misaligned_load : (next misaligned).Inv :=
  halted_inv _
    { reason := .alignmentViolation, pc := 0x00400000#32, word := some 0x8C220002#32, addr := some 0x10010002#32 }
    (by decide)
    ⟨by decide, by decide, .inr ⟨.lw { rs := 1#5, rt := 2#5, imm := 2#16 }, .word, 0x10010002#32, rfl, by decide, rfl,
      by decide⟩⟩
theorem test_inv_misaligned_fetch : (next jumped).Inv :=
  halted_inv _ { reason := .alignmentViolation, pc := 0x00400042#32, word := none, addr := some 0x00400042#32 }
    (by decide) ⟨by decide, by decide, .inl ⟨rfl, rfl, by decide⟩⟩

theorem test_witness_ShiftsShiftTheSourceRegister :
    ((State.reset.config.shiftSource = .rt → 5#32 = (start [(1#5, 5#32)]).reg 1#5) ∧
      (State.reset.config.shiftSource = .rs → 5#32 = (start [(1#5, 5#32)]).reg 2#5)) ∧
    (under { Config.default with shiftSource := .rs } State.reset).config.shiftSource = .rs := by decide

/-- The clauses for a zero divisor, for the pair that overflows under both values of the parameter, and for
ordinary operands next to that pair. -/
theorem test_witness_SignedDivideTruncates :
    (start [(2#5, 7#32)]).reg 3#5 = 0#32 ∧
    after (start [(2#5, 0x80000000#32), (3#5, 0xFFFFFFFF#32)]) 0x0043001A#32 (fun t => (t.hi, t.lo)) =
      some (0#32, 0x80000000#32) ∧
    after (under { Config.default with divOverflow := .refuse }
      (start [(2#5, 0x80000000#32), (3#5, 0xFFFFFFFF#32)])) 0x0043001A#32 (fun t => t.pc) = none ∧
    after (start [(2#5, 0x80000001#32), (3#5, 0xFFFFFFFF#32)]) 0x0043001A#32 (fun t => (t.hi, t.lo)) =
      some (0#32, 0x7FFFFFFF#32) ∧
    after (start [(2#5, 0x80000000#32), (3#5, 1#32)]) 0x0043001A#32 (fun t => (t.hi, t.lo)) =
      some (0#32, 0x80000000#32) := by decide

theorem test_witness_UnsignedDivideFloors : (start [(2#5, 7#32)]).reg 3#5 = 0#32 ∧
    (start [(3#5, 1#32)]).reg 3#5 ≠ 0#32 := by decide

theorem test_witness_EffectiveAddressAddsDisplacement : State.reset.config.eaBaseMode = .absolute ∧
    (under { Config.default with eaBaseMode := .dataRelative } State.reset).config.eaBaseMode = .dataRelative ∧
    (∃ t, exec (.lw { rs := 1#5, rt := 2#5, imm := 0#16 }) storing = .next t) ∧
    Instr.gprWritten (.lw { rs := 1#5, rt := 2#5, imm := 0#16 }) ≠ some 1#5 ∧
    ∃ t, exec (.sw { rs := 1#5, rt := 1#5, imm := 2#16 }) storing = .next t ∧ t.run = .halted :=
  ⟨rfl, rfl, ⟨_, rfl⟩, by decide, _, rfl, rfl⟩

/-- The last aligned word and halfword of the space, and a misaligned word that the parameter performs. -/
theorem test_witness_LoadsReadAndExtend :
    (start [(1#5, 0xFFFFFFFC#32)]).Performs ((start [(1#5, 0xFFFFFFFC#32)]).effectiveAddress
      { rs := 1#5, rt := 2#5, imm := 0#16 }) .word ∧
    (start [(1#5, 0xFFFFFFFC#32)]).Performs ((start [(1#5, 0xFFFFFFFC#32)]).effectiveAddress
      { rs := 1#5, rt := 2#5, imm := 2#16 }) .half ∧
    (under byBytes State.reset).Performs 0x10010001#32 .word := by
  unfold State.Performs; decide

theorem test_witness_StoresWriteTheirBytes : Memory.wf storing.mem ∧
    storing.Performs (storing.effectiveAddress { rs := 1#5, rt := 2#5, imm := 0#16 }) .word ∧
    storing.Performs (storing.effectiveAddress { rs := 1#5, rt := 2#5, imm := 2#16 }) .half := by
  unfold State.Performs; decide

theorem test_witness_MisalignedDataAccessFaults :
    ¬storing.Performs (storing.effectiveAddress { rs := 1#5, rt := 2#5, imm := 3#16 }) .word ∧
    ¬storing.Performs (storing.effectiveAddress { rs := 1#5, rt := 2#5, imm := 1#16 }) .half := by
  unfold State.Performs; decide

theorem test_witness_SignBranchesSelectTheTarget : (∃ f : IFields, f.rt = 0x00#5) ∧ ∃ f : IFields, f.rt = 0x01#5 :=
  ⟨⟨{ rs := 4#5, rt := 0#5, imm := 4#16 }, rfl⟩, { rs := 4#5, rt := 1#5, imm := 4#16 }, rfl⟩

/-- The value that selects the other branch, and the largest. -/
theorem test_witness_IllFormedSignBranchesBranchAlike :
    (∃ f : IFields, f.rt = 0x01#5 ∧ f.rt ≠ 0x00#5) ∧ ∃ f : IFields, f.rt ≠ 0x00#5 ∧ f.rt ≠ 0x01#5 :=
  ⟨⟨{ rs := 4#5, rt := 1#5, imm := 4#16 }, by decide⟩, { rs := 4#5, rt := 31#5, imm := 4#16 }, by decide⟩

theorem test_witness_SyscallHaltsOnItsCondition :
    (under { Config.default with syscallHalt := .always } State.reset).config.syscallHalt = .always ∧
    exiting.reg 2#5 = 0x0000000A#32 ∧
    State.reset.config.syscallHalt = .v0Equals10 ∧ (start [(2#5, 11#32)]).reg 2#5 ≠ 0x0000000A#32 := by decide

theorem test_witness_DecodeReadsTheWellFormedEncoding :
    Instr.wf (.bgez { rs := 31#5, rt := 1#5, imm := 0xFFFF#16 }) = true := by decide

theorem test_witness_EncodeRestoresTheDecodedWord : decode 0x00430FDB#32 =
    .instr (.divu { rs := 2#5, rt := 3#5, rd := 1#5, shamt := 31#5 }) := by decide

theorem test_witness_DecodeFollowsTheOpcodeRows : ∃ row ∈ opcodeRows, row.hits 0x04810004#32 :=
  ⟨.ofRegimm 0x04010000#32 .bgez, by simp [opcodeRows], by unfold OpcodeRow.hits; decide⟩

theorem test_witness_UnmappedWordsRaiseDecodeFault : unmapped.run = .running ∧
    unmapped.Performs unmapped.pc .word ∧ ∀ row ∈ opcodeRows, ¬row.hits unmapped.wordAtPc := by
  have h : unmapped.wordAtPc = 0x0000000D#32 := by decide
  rw [h]
  unfold State.Performs opcodeRows OpcodeRow.hits
  decide

theorem test_witness_FormatFollowsTheOpcodeAlone : decode 0x0C100040#32 =
    .instr (.jal { target := 0x0100040#26 }) := by decide

theorem test_witness_IgnoredFieldsHaveNoEffect : State.reset.config.shiftSource = .rt ∧
    (∃ f g : RFields, f ≠ g ∧ f.rt = g.rt ∧ f.rd = g.rd ∧ f.shamt = g.shamt) ∧
    (∃ f g : RFields, f ≠ g ∧ f.rs = g.rs ∧ f.rt = g.rt ∧ f.rd = g.rd) ∧
    ∃ f g : IFields, f ≠ g ∧ f.rs = g.rs ∧ f.imm = g.imm :=
  ⟨rfl,
    ⟨{ rs := 1#5, rt := 2#5, rd := 3#5, shamt := 4#5 }, { rs := 0#5, rt := 2#5, rd := 3#5, shamt := 4#5 }, by decide⟩,
    ⟨{ rs := 1#5, rt := 2#5, rd := 3#5, shamt := 4#5 }, { rs := 1#5, rt := 2#5, rd := 3#5, shamt := 0#5 }, by decide⟩,
    { rs := 1#5, rt := 31#5, imm := 4#16 }, { rs := 1#5, rt := 0#5, imm := 4#16 }, by decide⟩

theorem test_witness_StepExecutesTheDecodedInstruction : storing.run = .running ∧
    storing.Performs storing.pc .word ∧
    decode storing.wordAtPc = .instr (.sw { rs := 1#5, rt := 2#5, imm := 0#16 }) := by
  unfold State.Performs; decide

theorem test_witness_HaltedMachineChangesNothing : (next exiting).run = .halted := by decide

theorem test_witness_MisalignedFetchFaultsBeforeDecoding : jumped.run = .running ∧
    jumped.config.misalignedPolicy = .refuse ∧ jumped.pc.toNat % 4 ≠ 0 := by decide

/-- Address 0, and the address after the last of TEXT. -/
theorem test_witness_FetchOutsideSegmentsIsNoOp : State.reset.config.wf = true ∧ State.reset.run = .running ∧
    (atPc 0#32 State.reset).pc.toNat % 4 = 0 ∧ State.reset.config.mapped 0#32 = false ∧
    (atPc 0x00500000#32 State.reset).pc.toNat % 4 = 0 ∧ State.reset.config.mapped 0x00500000#32 = false := by
  decide

/-- The three faults, and the fetch that has no word. -/
theorem test_witness_FaultingStepsCommitNothing : ∀ s ∈ [unmapped, dividing, misaligned, jumped],
    s.run = .running ∧ (next s).run = .halted ∧ ((next s).report.map fun r => r.reason.isFault) = some true := by
  decide

/-- A step that stays RUNNING, the five ways a step ends HALTED, the host's stop, and reset. -/
theorem test_witness_StepsHaltOnlyForTheirReasons :
    storing.run = .running ∧ (next storing).run = .running ∧
    (∀ s ∈ [jumped, unmapped, dividing, misaligned, exiting], s.run = .running ∧ (next s).run = .halted) ∧
    ¬jumped.Performs jumped.pc .word ∧ decode unmapped.wordAtPc = .reject .unmappedFunct ∧
    decode dividing.wordAtPc = .instr (.div { rs := 2#5, rt := 3#5, rd := 0#5, shamt := 0#5 }) ∧
    dividing.reg 3#5 = 0#32 ∧
    decode misaligned.wordAtPc = .instr (.lw { rs := 1#5, rt := 2#5, imm := 2#16 }) ∧
    ¬misaligned.Performs (misaligned.effectiveAddress { rs := 1#5, rt := 2#5, imm := 2#16 }) .word ∧
    decode exiting.wordAtPc = .instr (.syscall { rs := 0#5, rt := 0#5, rd := 0#5, shamt := 0#5 }) ∧
    exiting.reg 2#5 = 0x0000000A#32 := by
  unfold State.Performs; decide

theorem test_witness_StepsHaltOnlyForTheirReasons_host : storing.command .stop = .next storing.stop ∧
    storing.stop.run = .halted ∧ ∃ t, storing.stop.command .reset = .next t ∧ t.run = .running :=
  ⟨rfl, rfl, _, rfl, rfl⟩

theorem test_witness_EveryStepKeepsTheInvariant : storing.Inv ∧ step storing = .next (next storing) ∧
    (next storing).mem ≠ storing.mem := ⟨test_inv_running, rfl, by decide⟩

theorem test_witness_EveryInstructionKeepsTheInvariant : storing.Inv ∧ storing.run = .running ∧
    exec (.jr { rs := 2#5, rt := 0#5, rd := 0#5, shamt := 0#5 }) storing = .next (storing.jump 0xCAFEF00D#32) :=
  ⟨test_inv_running, rfl, rfl⟩

theorem test_witness_ResetLeavesTheStatedValues : Config.wf { Config.default with image := [0x0000000C#32] } = true := by
  decide

theorem test_witness_PlacedWordIsTheNextInstruction : storing.Inv ∧ storing.run = .running ∧
    storing.pc.toNat % 4 = 0 ∧ storing.config.mapped storing.pc = true ∧
    decode (BitVec.ofNat 32 0x01095020) = .instr (.add { rs := 8#5, rt := 9#5, rd := 10#5, shamt := 0#5 }) :=
  ⟨test_inv_running, by decide⟩

theorem test_witness_RunsStopAtTheFirstHalt : (next exiting).run = .halted ∧ exiting.run = .running ∧
    step exiting = .next (next exiting) ∧ exiting.runSteps 3 = .next (next exiting) := ⟨rfl, rfl, rfl, rfl⟩

theorem test_witness_CompletedRunsHaveOneEnd : exiting.RunsToCompletion (next exiting) :=
  ⟨1, rfl, rfl⟩

/-- Every command, on a HALTED machine. -/
theorem test_witness_OnlyResetLeavesHalted : State.reset.stop.run = .halted ∧
    (∃ t, State.reset.stop.command .step = .next t) ∧ (∃ t, State.reset.stop.command (.run 2) = .next t) ∧
    (∃ t, State.reset.stop.command .reset = .next t) ∧ (∃ t, State.reset.stop.command .stop = .next t) ∧
    (∃ t, State.reset.stop.command (.setReg 1#5 5#32) = .next t) ∧
    (∃ t, State.reset.stop.command (.setHi 5#32) = .next t) ∧
    (∃ t, State.reset.stop.command (.setLo 5#32) = .next t) ∧
    ∃ t, State.reset.stop.command (.loadWord 0x10010000#32 5#32) = .next t :=
  ⟨rfl, ⟨_, rfl⟩, ⟨_, rfl⟩, ⟨_, rfl⟩, ⟨_, rfl⟩, ⟨_, rfl⟩, ⟨_, rfl⟩, ⟨_, rfl⟩, ⟨_, rfl⟩⟩

theorem test_witness_HostCommandsKeepTheInvariant : storing.Inv ∧
    ∃ t, storing.command (.loadWord 0x10010000#32 5#32) = .next t := ⟨test_inv_running, _, rfl⟩

theorem test_witness_HostCommandsDoWhatTheyName : Memory.wf storing.mem ∧ storing.next = storing.current ∧
    storing.Performs 0x10010004#32 .word ∧ ¬storing.Performs 0x10010006#32 .word := by
  unfold State.Performs; decide

theorem test_witness_OnlyTheDestinationRegisterChanges :
    ∃ t, exec (.addi { rs := 2#5, rt := 2#5, imm := 1#16 }) storing = .next t ∧ t.reg 2#5 ≠ storing.reg 2#5 :=
  ⟨_, rfl, by decide⟩

/-- Two files that differ in a register that `add $3, $1, $2` does not read. -/
theorem test_witness_OnlyTheSourceRegistersAreRead :
    let i : Instr := .add { rs := 1#5, rt := 2#5, rd := 3#5, shamt := 0#5 }
    let u : State := { storing with
      current := { storing.current with regs := (start [(1#5, 0x10010000#32), (2#5, 0xCAFEF00D#32), (9#5, 5#32)]).current.regs } }
    (∀ r ∈ i.gprsRead storing.config, u.reg r = storing.reg r) ∧ u.reg 9#5 ≠ storing.reg 9#5 ∧
    ∃ t v, exec i storing = .next t ∧ exec i u = .next v ∧ t.count = storing.count + 1 ∧ i.gprWritten = some 3#5 :=
  ⟨by decide, by decide, _, _, rfl, rfl, rfl, rfl⟩

/-- The two runs for an instruction that writes neither, both, or one of HI and LO. -/
theorem test_witness_HiLoBelongToTheirInstructions :
    let u : State := { storing with current := { storing.current with hi := 1#32, lo := 2#32 } }
    let f : RFields := { rs := 1#5, rt := 2#5, rd := 3#5, shamt := 0#5 }
    storing.reg f.rt ≠ 0#32 ∧ ∀ i ∈ [Instr.add f, .mult f, .div f, .mthi f, .mtlo f],
      (∀ f, i ≠ .mfhi f ∧ i ≠ .mflo f) ∧ ∃ t v, exec i storing = .next t ∧ exec i u = .next v := by
  refine ⟨by decide, fun i hi => ?_⟩
  simp only [List.mem_cons, List.not_mem_nil, or_false] at hi
  rcases hi with rfl | rfl | rfl | rfl | rfl <;> exact ⟨by simp, _, _, rfl, rfl⟩

/-- The byte just past the stored word, and the byte just before it. -/
theorem test_witness_OnlyStoresChangeMemory :
    let f : IFields := { rs := 1#5, rt := 2#5, imm := 0#16 }
    (∃ t, exec (.sw f) storing = .next t) ∧ accessSize (.sw f) = some .word ∧
    Size.word.bytes ≤ (0x10010004#32 - storing.effectiveAddress f).toNat ∧
    Size.word.bytes ≤ (0x1000FFFF#32 - storing.effectiveAddress f).toNat ∧
    ∃ t, exec (.lw f) storing = .next t :=
  ⟨⟨_, rfl⟩, rfl, by decide, by decide, _, rfl⟩

theorem test_witness_CommittedInstructionsAdvanceThePc :
    (∃ t, exec (.lui { rs := 0#5, rt := 2#5, imm := 1#16 }) storing = .next t ∧ t.count = storing.count + 1) ∧
    Instr.isControlFlow (.lui { rs := 0#5, rt := 2#5, imm := 1#16 }) = false ∧
    ∃ t, exec (.beq { rs := 0#5, rt := 0#5, imm := 0xFFFE#16 }) storing = .next t ∧ t.count = storing.count + 1 :=
  ⟨⟨_, rfl, rfl⟩, rfl, _, rfl, rfl⟩

theorem test_witness_OnlyRegisterJumpsMisalignThePc :
    let i : Instr := .j { target := 0x3FFFFFF#26 }
    (∀ f, i ≠ .jr f ∧ i ≠ .jalr f) ∧ storing.pc.toNat % 4 = 0 ∧ ∃ t, exec i storing = .next t :=
  ⟨fun _ => ⟨Instr.noConfusion, Instr.noConfusion⟩, by decide, _, rfl⟩

theorem test_witness_RegisterZeroStaysZero :
    ∃ t, exec (.addiu { rs := 1#5, rt := 0#5, imm := 5#16 }) storing = .next t ∧ t.count = storing.count + 1 :=
  ⟨_, rfl, rfl⟩

theorem test_witness_OnlyDivOverflowIsRefused : storing.config.divOverflow = .wrap := rfl

/-- First, last and next address of TEXT, and the address before it. -/
theorem test_witness_AddressesResolveToOneSegment : SegmentMap.default.wf = true ∧
    [0x003FFFFF#32, 0x00400000#32, 0x004FFFFF#32, 0x00500000#32].map SegmentMap.default.seg =
      [none, some .text, some .text, none] := by decide

theorem test_witness_AlignedAccessesStayInOneSegment : SegmentMap.default.wf = true ∧
    (0x1010FFFC#32).toNat % Size.word.bytes = 0 ∧ SegmentMap.default.seg 0x1010FFFF#32 = some .data := by decide

theorem test_witness_AlignedReadsFollowTheFormula : storing.config.wf = true ∧
    (0xFFFFFFFC#32).toNat % Size.word.bytes = 0 ∧ storing.config.mapped 0xFFFFFFFC#32 = false ∧
    (0x00400002#32).toNat % Size.half.bytes = 0 ∧ storing.config.mapped 0x00400002#32 = true := by decide

theorem test_witness_OutOfRangeAccessIsSilent : storing.config.wf = true ∧
    (0x10110000#32).toNat % Size.word.bytes = 0 ∧ storing.config.mapped 0x10110000#32 = false := by decide

theorem test_witness_MixedWidthReadsSeeTheStoredWord : storing.Inv ∧ (0x1010FFFC#32).toNat % 4 = 0 ∧
    storing.config.mapped 0x1010FFFC#32 = true := ⟨test_inv_running, by decide⟩

/-- A store into DATA, and one to address 0, which lies in no segment. -/
theorem test_witness_StoreThenLoadGivesTheValue : storing.Inv ∧
    ∀ f ∈ ([{ rs := 1#5, rt := 2#5, imm := 0#16 }, { rs := 0#5, rt := 2#5, imm := 0#16 }] : List IFields),
      (storing.effectiveAddress f).toNat % 4 = 0 ∧ exec (.sw f) storing = .next (storing.beginStep.memWrite (storing.effectiveAddress f) .word (storing.reg 2#5)).commit ∧
      (storing.beginStep.memWrite (storing.effectiveAddress f) .word (storing.reg 2#5)).commit.effectiveAddress f =
        storing.effectiveAddress f ∧ f.rt ≠ 0#5 := by
  refine ⟨test_inv_running, fun f hf => ?_⟩
  rcases List.mem_cons.1 hf with rfl | hf
  · exact ⟨by decide, rfl, by decide, by decide⟩
  · cases List.mem_singleton.1 hf
    exact ⟨by decide, rfl, by decide, by decide⟩

theorem test_witness_StoredWordIsFetchedNext : patching.Inv ∧ patching.run = .running ∧
    patching.pc.toNat % 4 = 0 ∧
    patching.effectiveAddress { rs := 1#5, rt := 2#5, imm := 4#16 } = patching.pc + 4#32 ∧
    patching.config.mapped (patching.pc + 4#32) = true ∧
    decode (patching.reg 2#5) = .instr (.addiu { rs := 0#5, rt := 2#5, imm := 10#16 }) ∧
    step patching = .next (next patching) :=
  ⟨running_inv _ (by decide), by decide, by decide, by decide, by decide, by decide, rfl⟩

end Sys2Proof.Tests
end

section
/-! ### What a step and an instruction can answer

`exec_frame` and `exec_outcome` read off `exec_cases` what every claim about all 44 instructions needs: what the
instruction leaves alone, and the three ways it can end. `step_cases` does the same for the front of a step. -/

namespace Sys2Proof.Machine

@[simp] theorem State.reg_zero (s : State) : s.reg 0#5 = 0#32 := Proc.reg_zero _

/-- What lies between a state and the one an instruction answers, whether it commits, halts or faults: the
destination of R26, the PC rules of R103, the HI and LO rules of R30, and memory changed by one `MemWrite` at most. -/
structure ExecFrame (i : Instr) (s t : State) : Prop where
  config_eq : t.config = s.config
  reg_eq    : ∀ r, i.gprWritten ≠ some r → t.reg r = s.reg r
  pc_eq     : t.pc = s.pc ∨ t.pc = s.pc + 4#32 ∨ (∃ f, t.pc = s.branchTarget f) ∨ (∃ f, t.pc = s.jumpTarget f) ∨
    ∃ f, i = .jr f ∨ i = .jalr f
  hi_eq     : t.hi = s.hi ∨
    ∃ f, i = .mult f ∨ i = .multu f ∨ i = .mthi f ∨ (i = .div f ∨ i = .divu f) ∧ s.reg f.rt ≠ 0#32
  lo_eq     : t.lo = s.lo ∨
    ∃ f, i = .mult f ∨ i = .multu f ∨ i = .mtlo f ∨ (i = .div f ∨ i = .divu f) ∧ s.reg f.rt ≠ 0#32
  mem_eq    : t.mem = s.mem ∨ ∃ a n v, t.mem = (s.memWrite a n v).mem

/-- A committed state that keeps HI and LO meets the frame when its PC, registers and memory do. -/
theorem Committed.frame {i : Instr} {s t : State} {pc : Word} (h : Committed s t pc s.hi s.lo)
    (hpc : pc = s.pc + 4#32 ∨ (∃ f, pc = s.branchTarget f) ∨ (∃ f, pc = s.jumpTarget f) ∨ ∃ f, i = .jr f ∨ i = .jalr f)
    (hreg : ∀ r, i.gprWritten ≠ some r → t.reg r = s.reg r)
    (hmem : t.mem = s.mem ∨ ∃ a n v, t.mem = (s.memWrite a n v).mem) : ExecFrame i s t where
  config_eq := h.config_eq
  reg_eq := hreg
  pc_eq := .inr (h.pc_eq ▸ hpc)
  hi_eq := .inl h.hi_eq
  lo_eq := .inl h.lo_eq
  mem_eq := hmem

/-- Writing one register leaves every register but the destination. -/
theorem reg_eq_of_written {i : Instr} {s t : State} {q : Reg} {v : Word} (hq : i.gprWritten = some q)
    (ht : ∀ r, t.reg r = if r = q ∧ r ≠ 0#5 then v else s.reg r) (r : Reg) (hr : i.gprWritten ≠ some r) :
    t.reg r = s.reg r := by
  have : r ≠ q := fun e => hr (e ▸ hq)
  simp [ht, this]

/-- Every instruction meets the frame; the cases are those of `exec_cases`, in its order. -/
theorem exec_frame {i : Instr} {s t : State} (h : exec i s = .next t) : ExecFrame i s t := by
  rcases exec_cases i s with ⟨r, v, hw, -, he⟩ | ⟨f, hi, lo, -, hf, he⟩ | ⟨f, n, -, -, -, -, he⟩ | ⟨f, b, -, -, he⟩ |
    ⟨a, -, hj, he⟩ | ⟨r, a, hw, hj, he⟩ | ⟨f, -, -, he⟩ | ⟨f, -, -, he⟩ | ⟨e, a, -, he⟩ | ⟨f, -, -, -, -, he⟩ <;>
    rw [he] at h <;> cases h
  · obtain ⟨hc, hr, hm⟩ := s.writeBack_spec r v
    exact hc.frame (.inl rfl) (reg_eq_of_written hw hr) (.inl hm)
  · obtain ⟨hc, hr, hm⟩ := s.writeHiLo_spec hi lo
    refine ⟨hc.config_eq, fun r _ => hr r, .inr (.inl hc.pc_eq), ?_, ?_, .inl hm⟩
    · rcases hf with hf | hf | hf | hf | ⟨-, rfl⟩
      · exact .inr ⟨f, .inl hf⟩
      · exact .inr ⟨f, .inr (.inl hf)⟩
      · exact .inr ⟨f, .inr (.inr (.inr hf))⟩
      · exact .inr ⟨f, .inr (.inr (.inl hf.1))⟩
      · exact .inl hc.hi_eq
    · rcases hf with hf | hf | hf | ⟨-, rfl⟩ | hf
      · exact .inr ⟨f, .inl hf⟩
      · exact .inr ⟨f, .inr (.inl hf)⟩
      · exact .inr ⟨f, .inr (.inr (.inr hf))⟩
      · exact .inl hc.lo_eq
      · exact .inr ⟨f, .inr (.inr (.inl hf.1))⟩
  · obtain ⟨hc, hr, hm⟩ := s.memWrite_commit_spec (s.effectiveAddress f) (s.reg f.rt) n
    have hmem := State.memWrite_mem_congr (s := s) (t := s.beginStep) rfl rfl (s.effectiveAddress f) (s.reg f.rt) n
    exact hc.frame (.inl rfl) (fun r _ => hr r) (.inr ⟨_, _, _, hm.trans hmem⟩)
  · obtain ⟨hc, hr, hm⟩ := s.branch_spec b (s.branchTarget f)
    refine hc.frame ?_ (fun r _ => hr r) (.inl hm)
    cases b
    · exact .inl rfl
    · exact .inr (.inl ⟨f, rfl⟩)
  · obtain ⟨hc, hr, hm⟩ := s.jump_spec a
    refine hc.frame (.inr (.inr ?_)) (fun r _ => hr r) (.inl hm)
    rcases hj with ⟨f, -, hj⟩ | ⟨f, hj, -⟩
    · exact .inl ⟨f, hj⟩
    · exact .inr ⟨f, .inl hj⟩
  · obtain ⟨hc, hr, hm⟩ := s.jumpAndLink_spec r s.linkValue a
    refine hc.frame (.inr (.inr ?_)) (reg_eq_of_written hw hr) (.inl hm)
    rcases hj with ⟨f, -, hj⟩ | ⟨f, hj, -⟩
    · exact .inl ⟨f, hj⟩
    · exact .inr ⟨f, .inr hj⟩
  · obtain ⟨hc, hr, hm⟩ := s.advance_spec
    exact hc.frame (.inl rfl) (fun r _ => hr r) (.inl hm)
  · obtain ⟨hc, hr, hm⟩ := s.advance_spec
    exact ⟨hc.config_eq, fun r _ => hr r, .inr (.inl hc.pc_eq), .inl hc.hi_eq, .inl hc.lo_eq, .inl hm⟩
  · exact ⟨rfl, fun _ _ => rfl, .inl rfl, .inl rfl, .inl rfl, .inl rfl⟩

/-- A committed state is committed with the PC, HI and LO it holds. -/
theorem Committed.self {s t : State} {pc hi lo : Word} (h : Committed s t pc hi lo) :
    Committed s t t.pc t.hi t.lo := by
  obtain ⟨rfl, rfl, rfl, h0, h1, h2, h3, h4, h5⟩ := h
  exact ⟨rfl, rfl, rfl, h0, h1, h2, h3, h4, h5⟩

/-- The three ways an instruction can end: a commit, a halt by SYSCALL after its commit, or a fault (R101, R106). -/
theorem exec_outcome {i : Instr} {s t : State} (h : exec i s = .next t) :
    Committed s t t.pc t.hi t.lo ∨
    (∃ f, i = .syscall f ∧ t = s.advance.halt s.pc (encode i)) ∨
    ∃ e a, RaisedBy i s e a ∧ t = s.raise e (some (encode i)) a := by
  rcases exec_cases i s with ⟨r, v, -, -, he⟩ | ⟨f, hi, lo, -, -, he⟩ | ⟨f, n, -, -, -, -, he⟩ | ⟨f, b, -, -, he⟩ |
    ⟨a, -, -, he⟩ | ⟨r, a, -, -, he⟩ | ⟨f, -, -, he⟩ | ⟨f, hf, -, he⟩ | ⟨e, a, hr, he⟩ | ⟨f, -, -, -, -, he⟩ <;>
    rw [he] at h <;> cases h
  · exact .inl (s.writeBack_spec r v).1.self
  · exact .inl (s.writeHiLo_spec hi lo).1.self
  · exact .inl (s.memWrite_commit_spec _ _ n).1.self
  · exact .inl (s.branch_spec b _).1.self
  · exact .inl (s.jump_spec a).1.self
  · exact .inl (s.jumpAndLink_spec r _ a).1.self
  · exact .inl s.advance_spec.1.self
  · exact .inr (.inl ⟨f, hf, rfl⟩)
  · exact .inr (.inr ⟨e, a, hr, rfl⟩)

/-! #### The front of a step -/

theorem State.performs_iff (s : State) (a : Word) (n : Size) : s.Performs a n ↔ s.refusesAccess a n = false :=
  (s.refusesAccess_eq_false a n).symm

theorem State.not_performs_iff (s : State) (a : Word) (n : Size) : ¬s.Performs a n ↔ s.refusesAccess a n = true := by
  simp [State.performs_iff]

theorem State.memRead_pc (s : State) : s.memRead s.pc .word = s.wordAtPc := s.memRead_word s.pc

/-- The four ways a step begins (R100, R101, R107). -/
theorem step_cases (s : State) :
    (s.run = .halted ∧ step s = .next s) ∨
    (s.run = .running ∧ ¬s.Performs s.pc .word ∧ step s = .next (s.raise .alignmentViolation none (some s.pc))) ∨
    (s.run = .running ∧ s.Performs s.pc .word ∧ ∃ e, decode s.wordAtPc = .reject e ∧
      step s = .next (s.raise .decodeFault (some s.wordAtPc) none)) ∨
    (s.run = .running ∧ s.Performs s.pc .word ∧ ∃ i, decode s.wordAtPc = .instr i ∧ step s = exec i s) := by
  simp only [State.performs_iff, Bool.not_eq_false, ← State.memRead_pc, step]
  rcases s.fetchDecode_spec with ⟨hr, hf⟩ | ⟨hr, ha, hf⟩ | ⟨hr, ha, e, hd, hf⟩ | ⟨hr, ha, i, hd, hf⟩
  · exact .inl ⟨hr, by rw [hf]⟩
  · exact .inr (.inl ⟨hr, ha, by rw [hf]⟩)
  · exact .inr (.inr (.inl ⟨hr, ha, e, hd, by rw [hf]⟩))
  · exact .inr (.inr (.inr ⟨hr, ha, i, hd, by rw [hf]⟩))

theorem step_of_halted {s : State} (hr : s.run = .halted) : step s = .next s := by
  simp [step, State.fetchDecode, hr]

theorem step_of_refused_fetch {s : State} (hr : s.run = .running) (ha : ¬s.Performs s.pc .word) :
    step s = .next (s.raise .alignmentViolation none (some s.pc)) := by
  simp [step, State.fetchDecode, hr, (s.not_performs_iff _ _).1 ha]

theorem step_of_reject {s : State} {e : DecodeReject} (hr : s.run = .running) (ha : s.Performs s.pc .word)
    (hd : decode s.wordAtPc = .reject e) : step s = .next (s.raise .decodeFault (some s.wordAtPc) none) := by
  simp [step, State.fetchDecode, hr, (s.performs_iff _ _).1 ha, State.memRead_pc, hd]

theorem step_of_instr {s : State} {i : Instr} (hr : s.run = .running) (ha : s.Performs s.pc .word)
    (hd : decode s.wordAtPc = .instr i) : step s = exec i s := by
  simp [step, State.fetchDecode, hr, (s.performs_iff _ _).1 ha, State.memRead_pc, hd]

/-! ### The invariant of the states between steps -/

/-- A machine that stops with its configuration, registers and memory as they were meets the invariant when its
report is in order. -/
theorem State.Inv.of_halted {s t : State} {r : HaltReport} (h : s.Inv) (hconfig : t.config = s.config)
    (hcurrent : t.current = s.current) (hnext : t.next = s.current) (hmem : t.mem = s.mem) (hrun : t.run = .halted)
    (hreport : t.report = some r) (hr : r.Wf s.config s.pc) : t.Inv where
  config_wf := hconfig ▸ h.config_wf
  copies_agree := hnext.trans hcurrent.symm
  zero_register := hcurrent ▸ h.zero_register
  mem_wf := hmem ▸ h.mem_wf
  mem_mapped := by simpa only [hmem, hconfig] using h.mem_mapped
  report_none := by simp [hrun, hreport]
  report_wf := by
    intro q hq
    obtain rfl : r = q := Option.some.inj (hreport.symm.trans hq)
    simpa only [State.pc, hconfig, hcurrent] using hr

/-- A fault keeps the invariant when its report is in order (R106). -/
theorem State.Inv.raise {s : State} (h : s.Inv) {e : HaltReason} {w a : Option Word}
    (hr : HaltReport.Wf { reason := e, pc := s.pc, word := w, addr := a } s.config s.pc) : (s.raise e w a).Inv :=
  h.of_halted rfl rfl rfl rfl rfl rfl hr

/-- Every report that `exec` raises is in order (R35, R190). -/
theorem RaisedBy.report_wf {i : Instr} {s : State} {e : HaltReason} {a : Option Word} (h : RaisedBy i s e a) :
    HaltReport.Wf { reason := e, pc := s.pc, word := some (encode i), addr := a } s.config s.pc := by
  rcases h with ⟨rfl, rfl, f, hi, -⟩ | ⟨rfl, f, n, -, hn, rfl, hr⟩
  · rcases hi with rfl | rfl
    · exact ⟨⟨f, .inl rfl⟩, rfl, rfl⟩
    · exact ⟨⟨f, .inr rfl⟩, rfl, rfl⟩
  · obtain ⟨hp, ha⟩ := (s.refusesAccess_eq_true _ _).1 hr
    exact ⟨hp, rfl, .inr ⟨i, n, _, hn, rfl, rfl, ha⟩⟩

/-- A commit whose memory is at most one `MemWrite` away keeps the invariant of a RUNNING machine. -/
theorem State.Inv.commits {s t : State} {pc hi lo : Word} (h : s.Inv) (hrun : s.run = .running)
    (hc : Committed s t pc hi lo) (hm : t.mem = s.mem ∨ ∃ a n v, t.mem = (s.memWrite a n v).mem) : t.Inv := by
  have hnone : t.report = none := hc.report_eq.trans (h.report_none.1 hrun)
  have hmem : Memory.wf t.mem ∧ ∀ c ∈ t.mem, t.config.mapped (BitVec.ofNat 32 c.1) = true := by
    rw [hc.config_eq]
    rcases hm with hm | ⟨a, n, v, hm⟩ <;> rw [hm]
    · exact ⟨h.mem_wf, h.mem_mapped⟩
    · exact State.memWrite_keeps h.mem_wf h.mem_mapped a v n
  exact {
    config_wf := hc.config_eq ▸ h.config_wf
    copies_agree := hc.copies
    zero_register := hc.stored_zero
    mem_wf := hmem.1
    mem_mapped := hmem.2
    report_none := by simp [hc.run_eq, hrun, hnone]
    report_wf := by simp [hnone] }

/-- The clean end of SYSCALL keeps the invariant (R185). -/
theorem State.Inv.syscall_halt {s : State} (h : s.Inv) (hrun : s.run = .running) (f : RFields) :
    (s.advance.halt s.pc (encode (.syscall f))).Inv := by
  obtain ⟨hc, -, hm⟩ := s.advance_spec
  exact (h.commits hrun hc (.inl hm)).of_halted rfl rfl rfl rfl rfl rfl ⟨⟨f, rfl⟩, rfl, rfl⟩

theorem exec_keeps_inv {i : Instr} {s t : State} (h : s.Inv) (hrun : s.run = .running) (he : exec i s = .next t) :
    t.Inv := by
  rcases exec_outcome he with hc | ⟨f, rfl, rfl⟩ | ⟨e, a, hr, rfl⟩
  · exact h.commits hrun hc (exec_frame he).mem_eq
  · exact h.syscall_halt hrun f
  · exact h.raise hr.report_wf

theorem step_keeps_inv {s t : State} (h : s.Inv) (hs : step s = .next t) : t.Inv := by
  rcases step_cases s with ⟨-, he⟩ | ⟨-, ha, he⟩ | ⟨-, -, e, hd, he⟩ | ⟨hrun, -, i, -, he⟩ <;> rw [he] at hs
  · cases hs
    exact h
  · cases hs
    obtain ⟨hp, ha⟩ := (s.refusesAccess_eq_true _ _).1 ((s.not_performs_iff _ _).1 ha)
    exact h.raise ⟨hp, rfl, .inl ⟨rfl, rfl, ha⟩⟩
  · cases hs
    exact h.raise ⟨⟨_, e, rfl, hd⟩, rfl, rfl⟩
  · exact exec_keeps_inv h hrun hs

/-- The state before the image is loaded meets the invariant, whatever the configuration (R36). -/
theorem State.initial_inv {c : Config} (hc : c.wf = true) : (State.initial c).Inv where
  config_wf := hc
  copies_agree := rfl
  zero_register := by simp [State.initial, Proc.initial]
  mem_wf := ⟨.nil, by simp [State.initial]⟩
  mem_mapped := by simp [State.initial]
  report_none := by simp [State.initial]
  report_wf := by simp [State.initial]

/-- Settles O34: the front of a step faults with a report in order, and the rest is `exec_keeps_inv`. -/
theorem everyStepKeepsTheInvariant : Obligations.EveryStepKeepsTheInvariant :=
  fun _ _ => step_keeps_inv

/-- Settles O35, by the three ways an instruction can end. -/
theorem everyInstructionKeepsTheInvariant : Obligations.EveryInstructionKeepsTheInvariant :=
  fun _ _ _ => exec_keeps_inv

/-- Settles O36: the default segment map meets R51. -/
theorem resetMeetsTheInvariant : Obligations.ResetMeetsTheInvariant :=
  State.initial_inv (c := Config.default) (by decide)

/-! ### Destinations, HI and LO, the PC and register 0 -/

/-- Settles O44, by the destination clause of `exec_frame`. -/
theorem onlyTheDestinationRegisterChanges : Obligations.OnlyTheDestinationRegisterChanges :=
  fun _ _ _ h => ⟨(exec_frame h).reg_eq, State.reg_zero _⟩

/-- Settles O50: only a fault leaves the counter, and every other end comes after `forceZero`. -/
theorem registerZeroStaysZero : Obligations.RegisterZeroStaysZero := by
  refine ⟨State.reg_zero, fun i s t he hcount => ?_, fun s v => ?_⟩
  · rcases exec_outcome he with hc | ⟨f, -, rfl⟩ | ⟨e, a, -, rfl⟩
    · exact ⟨hc.stored_zero, hc.copies ▸ hc.stored_zero⟩
    · exact ⟨s.advance_spec.1.stored_zero, s.advance_spec.1.stored_zero⟩
    · simp at hcount
  · obtain ⟨hc, hr, -⟩ := s.writeBack_spec 0#5 v
    exact ⟨fun r => by simp +contextual [hr], hc.pc_eq, hc.count_eq⟩

/-- An address is a multiple of 4 when its low two bits are 0. -/
theorem aligned_iff_setWidth (a : Word) : a.toNat % 4 = 0 ↔ a.setWidth 2 = 0#2 := by
  rw [← BitVec.toNat_inj, BitVec.toNat_setWidth, BitVec.toNat_ofNat]

/-- Two places to the left of anything are two zero bits. -/
theorem setWidth_two_shiftLeft (x : Word) : (x <<< 2).setWidth 2 = 0#2 := by
  ext k hk
  simp

theorem State.branchTarget_aligned {s : State} (h : s.pc.toNat % 4 = 0) (f : IFields) :
    (s.branchTarget f).toNat % 4 = 0 := by
  rw [aligned_iff_setWidth] at *
  rw [State.branchTarget, BitVec.setWidth_add _ _ (by decide), BitVec.setWidth_add _ _ (by decide), h,
    setWidth_two_shiftLeft]
  rfl

/-- A J-format target is aligned whatever the PC (R169). -/
theorem State.jumpTarget_aligned (s : State) (f : JFields) : (s.jumpTarget f).toNat % 4 = 0 := by
  rw [aligned_iff_setWidth, State.jumpTarget, BitVec.setWidth_or, BitVec.setWidth_and, setWidth_two_shiftLeft]
  exact (BitVec.or_zero).trans BitVec.and_zero

/-- Settles O49: the next PC, the branch target and the jump target are multiples of 4. -/
theorem onlyRegisterJumpsMisalignThePc : Obligations.OnlyRegisterJumpsMisalignThePc := by
  intro i s t hi hpc he
  rcases (exec_frame he).pc_eq with h | h | ⟨f, h⟩ | ⟨f, h⟩ | ⟨f, h⟩
  · rwa [h]
  · rw [h, BitVec.toNat_add, BitVec.toNat_ofNat]
    omega
  · exact h ▸ State.branchTarget_aligned hpc f
  · exact h ▸ s.jumpTarget_aligned f
  · exact absurd h (not_or.2 (hi f))

end Sys2Proof.Machine
end

section
/-! ### Halting, running again and the counter -/

namespace Sys2Proof.Machine

/-- Only the counter differs. -/
def State.withCount (s : State) (n : Nat) : State := { s with count := n }

/-- Results that differ in the counter of the next state only. -/
inductive SameButCount : Result → Result → Prop where
  | next (t : State) (c : Nat) : SameButCount (.next t) (.next (t.withCount c))
  | refused (e : Refusal) : SameButCount (.refused e) (.refused e)

/-- Two results that branch on one condition differ in the counter only when each pair of branches does. -/
theorem SameButCount.ite {p : Prop} [Decidable p] {out₁ out₂ out₁' out₂' : Result} (h₁ : SameButCount out₁ out₁')
    (h₂ : SameButCount out₂ out₂') : SameButCount (if p then out₁ else out₂) (if p then out₁' else out₂') := by
  split
  · exact h₁
  · exact h₂

theorem State.storeByte_withCount (s : State) (n : Nat) (a : Word) (b : Byte) :
    (s.withCount n).storeByte a b = (s.storeByte a b).withCount n := by
  unfold State.storeByte
  rw [show (s.withCount n).config = s.config from rfl]
  split
  · rfl
  · rfl

theorem State.writeBytes_withCount (k : Nat) (s : State) (n : Nat) (a v : Word) :
    (s.withCount n).writeBytes a v k = (s.writeBytes a v k).withCount n := by
  induction k generalizing s a v with
  | zero => rfl
  | succ k ih => rw [State.writeBytes, State.storeByte_withCount, ih, State.writeBytes]

/-- A load performs the same access and reads the same bytes, whatever the counter. -/
theorem State.load_withCount (s : State) (n : Nat) (i : Instr) (ea : Word) (k : Size) (extend : Word → Word)
    (r : Reg) :
    SameButCount (s.load i ea k extend r) ((s.withCount n).load i ea k extend r) := by
  have hread : (s.withCount n).memRead ea k = s.memRead ea k :=
    State.memRead_congr (s := s) (t := s.withCount n) rfl rfl ea k
  unfold State.load
  rw [hread]
  exact .ite (.next _ n) (.next (s.writeBack r _) (n + 1))

/-- A store performs the same access and writes the same bytes, whatever the counter. -/
theorem State.store_withCount (s : State) (n : Nat) (i : Instr) (ea : Word) (k : Size) (v : Word) :
    SameButCount (s.store i ea k v) ((s.withCount n).store i ea k v) := by
  have hwrite : (s.withCount n).beginStep.memWrite ea k v = (s.beginStep.memWrite ea k v).withCount n :=
    State.writeBytes_withCount _ s.beginStep n ea v
  unfold State.store
  rw [hwrite]
  exact .ite (.next _ n) (.next (s.beginStep.memWrite ea k v).commit (n + 1))

theorem State.branch_withCount (s : State) (n : Nat) (taken : Bool) (a : Word) :
    SameButCount (.next (s.branch taken a)) (.next ((s.withCount n).branch taken a)) := by
  cases taken
  · exact .next s.advance (n + 1)
  · exact .next (s.jump a) (n + 1)

/-- No instruction reads the counter (R34). -/
theorem exec_withCount (i : Instr) (s : State) (n : Nat) : SameButCount (exec i s) (exec i (s.withCount n)) := by
  cases i with
  | sll f | srl f | sra f | mfhi f | mflo f | add f | addu f | sub f | subu f | and f | or f | xor f | nor f
  | slt f | addi f | addiu f | slti f | andi f | ori f | xori f | lui f => exact .next (s.writeBack _ _) (n + 1)
  | mult f | multu f | mthi f | mtlo f => exact .next (s.writeHiLo _ _) (n + 1)
  | j f | jr f => exact .next (s.jump _) (n + 1)
  | jal f | jalr f => exact .next (s.jumpAndLink _ _ _) (n + 1)
  | beq f | bne f | blez f | bgtz f | bltz f | bgez f => exact s.branch_withCount n _ _
  | lw f | lh f | lb f => exact s.load_withCount n _ _ _ _ _
  | sw f | sh f | sb f => exact s.store_withCount n _ _ _ _
  | syscall f => exact .ite (.next (s.advance.halt _ _) (n + 1)) (.next s.advance (n + 1))
  | div f => exact .ite (.next (s.divideByZero _) n) (.ite (.refused _) (.next (s.writeHiLo _ _) (n + 1)))
  | divu f => exact .ite (.next (s.divideByZero _) n) (.next (s.writeHiLo _ _) (n + 1))

/-- No step reads the counter (R34). -/
theorem step_withCount (s : State) (n : Nat) : SameButCount (step s) (step (s.withCount n)) := by
  rcases step_cases s with ⟨hr, he⟩ | ⟨hr, ha, he⟩ | ⟨hr, ha, e, hd, he⟩ | ⟨hr, ha, i, hd, he⟩ <;> rw [he]
  · rw [step_of_halted (s := s.withCount n) hr]
    exact .next s n
  · rw [step_of_refused_fetch (s := s.withCount n) hr ha]
    exact .next _ n
  · rw [step_of_reject (s := s.withCount n) hr ha hd]
    exact .next _ n
  · rw [step_of_instr (s := s.withCount n) hr ha hd]
    exact exec_withCount i s n

/-- What a step of a RUNNING machine leaves in the run flag, the report and the counter (R33, R34). -/
theorem step_running_cases {s t : State} (hrun : s.run = .running) (hs : step s = .next t) :
    (t.run = .running ∧ t.report = s.report ∧ t.count = s.count + 1) ∨
    (∃ f, decode s.wordAtPc = .instr (.syscall f) ∧ t = s.advance.halt s.pc (encode (.syscall f))) ∨
    ∃ e w a, (e = .decodeFault ∨ e = .divideByZero ∨ e = .alignmentViolation) ∧ t = s.raise e w a := by
  rcases step_cases s with ⟨hh, -⟩ | ⟨-, -, he⟩ | ⟨-, -, e, -, he⟩ | ⟨-, -, i, hd, he⟩
  · simp [hrun] at hh
  · rw [he] at hs
    cases hs
    exact .inr (.inr ⟨_, _, _, .inr (.inr rfl), rfl⟩)
  · rw [he] at hs
    cases hs
    exact .inr (.inr ⟨_, _, _, .inl rfl, rfl⟩)
  · rcases exec_outcome (he ▸ hs) with hc | ⟨f, rfl, rfl⟩ | ⟨e, a, hr, rfl⟩
    · exact .inl ⟨hc.run_eq.trans hrun, hc.report_eq, hc.count_eq⟩
    · exact .inr (.inl ⟨f, hd, rfl⟩)
    · rcases hr with ⟨rfl, -⟩ | ⟨rfl, -⟩
      · exact .inr (.inr ⟨_, _, _, .inr (.inl rfl), rfl⟩)
      · exact .inr (.inr ⟨_, _, _, .inr (.inr rfl), rfl⟩)

/-! #### The instructions that halt -/

theorem exec_div_by_zero {i : Instr} {s : State} {f : RFields} (hi : i = .div f ∨ i = .divu f)
    (h : s.reg f.rt = 0#32) : exec i s = .next (s.raise .divideByZero (some (encode i)) none) := by
  rcases hi with rfl | rfl
  · exact if_pos h
  · exact if_pos h

theorem State.load_not_performed {s : State} {ea : Word} {n : Size} (h : ¬s.Performs ea n) (i : Instr)
    (extend : Word → Word) (r : Reg) :
    s.load i ea n extend r = .next (s.raise .alignmentViolation (some (encode i)) (some ea)) :=
  if_pos ((s.not_performs_iff ea n).1 h)

theorem State.store_not_performed {s : State} {ea : Word} {n : Size} (h : ¬s.Performs ea n) (i : Instr) (v : Word) :
    s.store i ea n v = .next (s.raise .alignmentViolation (some (encode i)) (some ea)) :=
  if_pos ((s.not_performs_iff ea n).1 h)

theorem exec_not_performed {i : Instr} {s : State} {f : IFields} {n : Size}
    (hi : i = .lw f ∨ i = .lh f ∨ i = .sw f ∨ i = .sh f) (hn : accessSize i = some n)
    (h : ¬s.Performs (s.effectiveAddress f) n) :
    exec i s = .next (s.raise .alignmentViolation (some (encode i)) (some (s.effectiveAddress f))) := by
  rcases hi with rfl | rfl | rfl | rfl <;> obtain rfl := Option.some.inj hn
  · exact State.load_not_performed h _ _ _
  · exact State.load_not_performed h _ _ _
  · exact State.store_not_performed h _ _
  · exact State.store_not_performed h _ _

theorem State.syscallHalts_iff (s : State) :
    s.syscallHalts = true ↔ s.config.syscallHalt = .always ∨ s.reg 2#5 = exitService := by
  unfold State.syscallHalts
  cases s.config.syscallHalt <;> simp

theorem exec_syscall_halts {s : State} (f : RFields) (h : s.syscallHalts = true) :
    exec (.syscall f) s = .next (s.advance.halt s.pc (encode (.syscall f))) :=
  if_pos h

/-- A fetch that is not performed ends HALTED, and so does a word that does not decode (R61, R107). -/
theorem step_halts_of_fetch {s : State} (hrun : s.run = .running)
    (h : ¬s.Performs s.pc .word ∨ ∃ e, decode s.wordAtPc = .reject e) : ∃ t, step s = .next t ∧ t.run = .halted := by
  by_cases ha : s.Performs s.pc .word
  · obtain ⟨e, hd⟩ := h.resolve_left (not_not_intro ha)
    exact ⟨_, step_of_reject hrun ha hd, rfl⟩
  · exact ⟨_, step_of_refused_fetch hrun ha, rfl⟩

/-- A step ends HALTED when the instruction it decodes does, performed or not its fetch (R33). -/
theorem step_halts_of_exec {s t : State} {i : Instr} (hrun : s.run = .running) (hd : decode s.wordAtPc = .instr i)
    (he : exec i s = .next t) (ht : t.run = .halted) : ∃ t, step s = .next t ∧ t.run = .halted := by
  by_cases ha : s.Performs s.pc .word
  · exact ⟨t, (step_of_instr hrun ha hd).trans he, ht⟩
  · exact step_halts_of_fetch hrun (.inl ha)

/-! #### The host's commands on a HALTED machine -/

theorem State.runSteps_of_halted {s : State} (h : s.run = .halted) (n : Nat) : s.runSteps n = .next s := by
  cases n with
  | zero => rfl
  | succ n => simp [State.runSteps, h]

theorem State.loadWord_run {s t : State} {a v : Word} (h : s.loadWord a v = .next t) : t.run = s.run := by
  unfold State.loadWord at h
  split at h
  · cases h
  · cases h
    exact s.memWrite_run a v .word

/-- No command but reset leaves HALTED (R33, R199, R207). -/
theorem State.command_of_halted {s t : State} {c : Command} (hh : s.run = .halted) (hc : c ≠ .reset)
    (h : s.command c = .next t) : t.run = .halted := by
  cases c with
  | step =>
    cases (step_of_halted hh).symm.trans h
    exact hh
  | run n =>
    cases (State.runSteps_of_halted hh n).symm.trans h
    exact hh
  | reset => exact absurd rfl hc
  | stop =>
    cases h
    rfl
  | setReg r v | setHi v | setLo v =>
    cases h
    exact hh
  | loadWord a v => exact (State.loadWord_run h).trans hh

/-- Settles O33: `step_running_cases` says how a step ends, the lemmas after it which steps halt, and
`step_withCount` that no step reads the counter. -/
theorem stepsHaltOnlyForTheirReasons : Obligations.StepsHaltOnlyForTheirReasons := by
  refine ⟨fun s t hrun hs => ?_, fun s hrun h => ?_, fun s t c hc => ⟨?_, fun hh ht => ?_⟩, fun s t n hs => ?_⟩
  · rcases step_running_cases hrun hs with h | ⟨f, hd, rfl⟩ | ⟨e, w, a, he, rfl⟩
    · exact .inl h
    · have hadv := s.advance_spec.1
      exact .inr ⟨rfl, _, rfl, rfl, .inl ⟨rfl, hadv.count_eq, hadv.pc_eq, f, hd, rfl⟩⟩
    · exact .inr ⟨rfl, _, rfl, rfl, .inr ⟨he, rfl⟩⟩
  · rcases h with ha | hd | ⟨i, hd, h⟩
    · exact step_halts_of_fetch hrun (.inl ha)
    · exact step_halts_of_fetch hrun (.inr hd)
    · rcases h with ⟨f, hi, h0⟩ | ⟨f, n, hi, hn, hp⟩ | ⟨f, rfl, hcond⟩
      · exact step_halts_of_exec hrun hd (exec_div_by_zero hi h0) rfl
      · exact step_halts_of_exec hrun hd (exec_not_performed hi hn hp) rfl
      · exact step_halts_of_exec hrun hd (exec_syscall_halts f (s.syscallHalts_iff.2 hcond)) rfl
  · rintro rfl
    cases hc
    rfl
  · by_contra hne
    simp [State.command_of_halted hh hne hc] at ht
  · have h := step_withCount s n
    rw [hs] at h
    generalize hu : step (s.withCount n) = out at h
    cases h with
    | next _ c => exact ⟨c, hu⟩

end Sys2Proof.Machine
end

section
/-! ### Reset and the program image -/

namespace Sys2Proof

/-- Addresses of TEXT (R51). -/
abbrev Config.inText (c : Config) (a : Word) : Prop :=
  c.textBase.toNat ≤ a.toNat ∧ a.toNat < c.textBase.toNat + c.segments.text.size

/-- The distance of an address from TEXT_BASE. -/
def Config.textOffset (c : Config) (a : Word) : Nat := a.toNat - c.textBase.toNat

theorem Segment.contains_iff (g : Segment) (a : Word) :
    g.contains a = true ↔ g.base.toNat ≤ a.toNat ∧ a.toNat < g.base.toNat + g.size := by
  simp [Segment.contains]

/-- Every address of TEXT resolves to a segment. -/
theorem Config.mapped_of_inText {c : Config} {a : Word} (h : c.inText a) : c.mapped a = true := by
  have : (c.segments.segment .text).contains a = true := (Segment.contains_iff _ a).2 h
  simp [Config.mapped, SegmentMap.seg, List.find?, this]

theorem Segment.wf_iff (g : Segment) :
    g.wf = true ↔ g.base.toNat % 4 = 0 ∧ g.size % 4 = 0 ∧ g.base.toNat + g.size ≤ 2 ^ 32 := by
  simp [Segment.wf, and_assoc]

/-- R51 (b) and (c) for TEXT. -/
theorem Config.text_bounds {c : Config} (hc : c.wf = true) :
    c.segments.text.size % 4 = 0 ∧ c.textBase.toNat + c.segments.text.size ≤ 2 ^ 32 :=
  ((Segment.wf_iff _).1 (SegmentMap.segment_wf hc .text)).2

/-- An address lies in the four bytes of word `k` of TEXT exactly when it is in TEXT and its word number is `k`; the
number of bytes before it is then its offset modulo 4. -/
theorem Config.toNat_sub_imageWord {c : Config} (hc : c.wf = true) {k : Nat} (hk : 4 * k < c.segments.text.size)
    (a : Word) :
    ((a - (c.textBase + BitVec.ofNat 32 (4 * k))).toNat < 4 ↔ c.inText a ∧ c.textOffset a / 4 = k) ∧
    (c.inText a → c.textOffset a / 4 = k →
      (a - (c.textBase + BitVec.ofNat 32 (4 * k))).toNat = c.textOffset a % 4) := by
  obtain ⟨h4, hend⟩ := Config.text_bounds hc
  have ha := a.isLt
  unfold Config.inText Config.textOffset
  rw [BitVec.toNat_sub, BitVec.toNat_add, BitVec.toNat_ofNat]
  generalize c.textBase.toNat = base at *
  generalize c.segments.text.size = size at *
  constructor
  · omega
  · omega

end Sys2Proof

namespace Sys2Proof.Machine

/-- `t` is `s` but for its memory. -/
structure SameButMem (s t : State) : Prop where
  config_eq  : t.config = s.config
  current_eq : t.current = s.current
  next_eq    : t.next = s.next
  run_eq     : t.run = s.run
  count_eq   : t.count = s.count
  report_eq  : t.report = s.report

/-- Word `k` of an image, loaded or dropped as R214 says. -/
def State.loadImageWord (s : State) (k : Nat) (w : Word) : State :=
  if 4 * k < s.config.segments.text.size then s.memWrite (s.config.textBase + BitVec.ofNat 32 (4 * k)) .word w else s

theorem State.loadImageFrom_cons (s : State) (k : Nat) (w : Word) (ws : List Word) :
    s.loadImageFrom k (w :: ws) = (s.loadImageWord k w).loadImageFrom (k + 1) ws := rfl

theorem State.loadImageWord_frame (s : State) (k : Nat) (w : Word) : SameButMem s (s.loadImageWord k w) := by
  unfold State.loadImageWord
  split
  · constructor <;> simp
  · exact ⟨rfl, rfl, rfl, rfl, rfl, rfl⟩

/-- Loading an image changes nothing but memory. -/
theorem State.loadImageFrom_frame (ws : List Word) (s : State) (k : Nat) : SameButMem s (s.loadImageFrom k ws) := by
  induction ws generalizing s k with
  | nil => exact ⟨rfl, rfl, rfl, rfl, rfl, rfl⟩
  | cons w ws ih =>
    have h := s.loadImageWord_frame k w
    have h' := ih (s.loadImageWord k w) (k + 1)
    rw [State.loadImageFrom_cons]
    exact ⟨h'.config_eq.trans h.config_eq, h'.current_eq.trans h.current_eq, h'.next_eq.trans h.next_eq,
      h'.run_eq.trans h.run_eq, h'.count_eq.trans h.count_eq, h'.report_eq.trans h.report_eq⟩

theorem State.afterReset_frame (c : Config) : SameButMem (State.initial c) (State.afterReset c) :=
  State.loadImageFrom_frame c.image (State.initial c) 0

theorem State.loadImageWord_wf {s : State} (h : Memory.wf s.mem) (k : Nat) (w : Word) :
    Memory.wf (s.loadImageWord k w).mem := by
  unfold State.loadImageWord
  split
  · exact State.memWrite_wf h _ _ _
  · exact h

/-! #### The bytes of the image -/

/-- What a byte read gives after one image word: a byte of the word at the word's own addresses. -/
theorem State.loadByte_loadImageWord {s : State} (hm : Memory.wf s.mem) (hc : s.config.wf = true) (k : Nat)
    (w a : Word) :
    (s.loadImageWord k w).loadByte a =
      if s.config.inText a ∧ s.config.textOffset a / 4 = k then w.extractLsb' (8 * (s.config.textOffset a % 4)) 8
      else s.loadByte a := by
  unfold State.loadImageWord
  split
  · next hk =>
    obtain ⟨hiff, hoff⟩ := Config.toNat_sub_imageWord hc hk a
    rw [State.loadByte_memWrite hm]
    by_cases h : s.config.inText a ∧ s.config.textOffset a / 4 = k
    · rw [if_pos ⟨hiff.2 h, Config.mapped_of_inText h.1⟩, if_pos h, hoff h.1 h.2]
    · rw [if_neg fun h' => h (hiff.1 h'.1), if_neg h]
  · next hk =>
    refine (if_neg fun ⟨⟨_, hlt⟩, heq⟩ => hk ?_).symm
    obtain ⟨h4, -⟩ := Config.text_bounds hc
    unfold Config.textOffset at heq
    omega

/-- What a byte read gives after an image from word `k` on: a byte of the image word, in TEXT, up to the image's end. -/
theorem State.loadByte_loadImageFrom (ws : List Word) {s : State} (hm : Memory.wf s.mem) (hc : s.config.wf = true)
    (k : Nat) (a : Word) :
    (s.loadImageFrom k ws).loadByte a =
      if s.config.inText a ∧ k ≤ s.config.textOffset a / 4 ∧ s.config.textOffset a / 4 < k + ws.length then
        (ws.getD (s.config.textOffset a / 4 - k) 0#32).extractLsb' (8 * (s.config.textOffset a % 4)) 8
      else s.loadByte a := by
  induction ws generalizing s k with
  | nil => exact (if_neg fun h => by simp at h; omega).symm
  | cons w ws ih =>
    have hconfig := (s.loadImageWord_frame k w).config_eq
    rw [State.loadImageFrom_cons, ih (State.loadImageWord_wf hm k w) (hconfig ▸ hc) (k + 1), hconfig,
      State.loadByte_loadImageWord hm hc]
    generalize s.config.textOffset a / 4 = q
    rcases lt_trichotomy q k with h | rfl | h
    · rw [if_neg (by omega), if_neg (by omega), if_neg (by omega)]
    · simp
    · have hq : q - k = (q - (k + 1)) + 1 := by omega
      rw [hq, List.getD_cons_succ, List.length_cons, if_neg (fun h' : _ ∧ q = k => by omega)]
      exact if_congr (by omega) rfl rfl

/-- The bytes of memory after reset: the image in TEXT, 0 past its end and everywhere else (R210, R214). -/
theorem State.loadByte_afterReset {c : Config} (hc : c.wf = true) (a : Word) :
    (State.afterReset c).loadByte a =
      if c.inText a then (c.image.getD (c.textOffset a / 4) 0#32).extractLsb' (8 * (c.textOffset a % 4)) 8
      else 0#8 := by
  have hzero : (State.initial c).loadByte a = 0#8 := by
    simp [State.loadByte, State.initial, Memory.read, unlistedByte]
  rw [State.afterReset, State.loadByte_loadImageFrom c.image (State.initial_inv hc).mem_wf hc, hzero,
    show (State.initial c).config = c from rfl]
  by_cases hlen : c.textOffset a / 4 < c.image.length
  · simp [hlen]
  · rw [List.getD_eq_default _ _ (Nat.le_of_not_lt hlen)]
    simp [hlen]

/-- Settles O37: the frame of the image loader over `State.initial`, and the bytes of `State.loadByte_afterReset`. -/
theorem resetLeavesTheStatedValues : Obligations.ResetLeavesTheStatedValues := by
  refine ⟨fun c hc => ?_, rfl, fun s => rfl⟩
  have h := State.afterReset_frame c
  have hreg : ∀ r, (State.initial c).reg r = 0#32 := fun r => by
    simp [State.reg, State.initial, Proc.reg, Proc.initial]
  refine ⟨fun r => ?_, ?_, ?_, ?_, ?_, h.run_eq, h.count_eq, h.report_eq, h.config_eq, State.loadByte_afterReset hc⟩
  · rw [← hreg r, State.reg, h.current_eq, State.reg]
  · exact congrArg Proc.hi h.current_eq
  · exact congrArg Proc.lo h.current_eq
  · exact congrArg Proc.pc h.current_eq
  · exact h.next_eq.trans h.current_eq.symm

/-- Settles O41: `State.command_of_halted` for the other commands, the frame of the image loader for reset. -/
theorem onlyResetLeavesHalted : Obligations.OnlyResetLeavesHalted := by
  refine fun s t c hh hc => ⟨fun hne => State.command_of_halted hh hne hc, ?_⟩
  rintro rfl
  cases hc
  have h := State.afterReset_frame s.config
  exact ⟨h.run_eq, h.count_eq, h.report_eq⟩

end Sys2Proof.Machine
end

section
/-! ### What an instruction reads

Two machines that agree in the operands of an instruction get alike results from it (`exec_alike`): every arm of
`exec` computes one shared operation from its operands, and each shared operation keeps likeness. -/

namespace Sys2Proof.Machine

/-- Two machines that agree in all but their general registers, HI and LO (and the next copy). -/
structure SameMachine (s u : State) : Prop where
  pc_eq     : u.pc = s.pc
  mem_eq    : u.mem = s.mem
  run_eq    : u.run = s.run
  count_eq  : u.count = s.count
  report_eq : u.report = s.report
  config_eq : u.config = s.config

/-- Two machines that agree in all that an instruction reads (R27, R30, R139). -/
structure SameOperands (i : Instr) (s u : State) : Prop extends SameMachine s u where
  reg_eq : ∀ r ∈ i.gprsRead s.config, u.reg r = s.reg r
  hi_eq  : (∃ f, i = .mfhi f) → u.hi = s.hi
  lo_eq  : (∃ f, i = .mflo f) → u.lo = s.lo

/-- After an instruction with destination `d`, `v` is to `t` what `u` was to `s`, and a commit has written the same
value into `d`. -/
structure AlikeAfter (d : Option Reg) (s u t v : State) : Prop extends SameMachine t v where
  hi_eq   : u.hi = s.hi → v.hi = t.hi
  lo_eq   : u.lo = s.lo → v.lo = t.lo
  reg_eq  : ∀ r, u.reg r = s.reg r → v.reg r = t.reg r
  dest_eq : t.count = s.count + 1 → ∀ r, d = some r → v.reg r = t.reg r

/-- Both results are the same refusal, or next states that are alike. -/
inductive AlikeResults (d : Option Reg) (s u : State) : Result → Result → Prop where
  | next {t v : State} (h : AlikeAfter d s u t v) : AlikeResults d s u (.next t) (.next v)
  | refused (e : Refusal) : AlikeResults d s u (.refused e) (.refused e)

/-- The registers after one write of the same value into the destination. -/
theorem reg_alike_of_written {s u t v : State} {q : Reg} {x : Word}
    (ht : ∀ r, t.reg r = if r = q ∧ r ≠ 0#5 then x else s.reg r)
    (hv : ∀ r, v.reg r = if r = q ∧ r ≠ 0#5 then x else u.reg r) (r : Reg)
    (hr : u.reg r = s.reg r ∨ some q = some r) : v.reg r = t.reg r := by
  rw [ht, hv]
  rcases hr with hr | hr
  · rw [hr]
  · obtain rfl := Option.some.inj hr
    by_cases h0 : q = 0#5
    · simp [h0]
    · simp [h0]

/-- The registers after an operation that writes none. -/
theorem reg_alike_of_kept {s u t v : State} (ht : ∀ r, t.reg r = s.reg r) (hv : ∀ r, v.reg r = u.reg r) (r : Reg)
    (hr : u.reg r = s.reg r ∨ none = some r) : v.reg r = t.reg r := by
  rw [ht, hv, hr.resolve_right (by simp)]

section Operations

variable {s u : State} {d : Option Reg} (h : SameMachine s u)
include h

theorem SameMachine.branchTarget_eq (f : IFields) : u.branchTarget f = s.branchTarget f := by
  rw [State.branchTarget, h.pc_eq, State.branchTarget]

theorem SameMachine.jumpTarget_eq (f : JFields) : u.jumpTarget f = s.jumpTarget f := by
  rw [State.jumpTarget, h.pc_eq, State.jumpTarget]

theorem SameMachine.linkValue_eq : u.linkValue = s.linkValue := by
  rw [State.linkValue, h.pc_eq, State.linkValue]

theorem SameMachine.refusesAccess_eq (a : Word) (n : Size) : u.refusesAccess a n = s.refusesAccess a n := by
  rw [State.refusesAccess, h.config_eq, State.refusesAccess]

/-- Two commits with the same PC and memory, and HI, LO and registers as `AlikeAfter` asks, are alike. -/
theorem SameMachine.committed {t v : State} {pc pc' hi hi' lo lo' : Word} (ht : Committed s t pc hi lo)
    (hv : Committed u v pc' hi' lo') (hpc : pc' = pc) (hmem : v.mem = t.mem) (hhi : u.hi = s.hi → hi' = hi)
    (hlo : u.lo = s.lo → lo' = lo) (hreg : ∀ r, u.reg r = s.reg r ∨ d = some r → v.reg r = t.reg r) :
    AlikeAfter d s u t v where
  pc_eq := hv.pc_eq.trans (hpc.trans ht.pc_eq.symm)
  mem_eq := hmem
  run_eq := hv.run_eq.trans (h.run_eq.trans ht.run_eq.symm)
  count_eq := by rw [hv.count_eq, ht.count_eq, h.count_eq]
  report_eq := hv.report_eq.trans (h.report_eq.trans ht.report_eq.symm)
  config_eq := hv.config_eq.trans (h.config_eq.trans ht.config_eq.symm)
  hi_eq e := hv.hi_eq.trans ((hhi e).trans ht.hi_eq.symm)
  lo_eq e := hv.lo_eq.trans ((hlo e).trans ht.lo_eq.symm)
  reg_eq r e := hreg r (.inl e)
  dest_eq _ r e := hreg r (.inr e)

theorem SameMachine.pc_add_four : u.pc + 4#32 = s.pc + 4#32 := congrArg (· + 4#32) h.pc_eq

theorem SameMachine.advance : AlikeAfter none s u s.advance u.advance := by
  obtain ⟨hc, hr, hm⟩ := s.advance_spec
  obtain ⟨hc', hr', hm'⟩ := u.advance_spec
  exact h.committed hc hc' h.pc_add_four (hm'.trans (h.mem_eq.trans hm.symm)) id id (reg_alike_of_kept hr hr')

theorem SameMachine.writeBack (r : Reg) (x : Word) :
    AlikeAfter (some r) s u (s.writeBack r x) (u.writeBack r x) := by
  obtain ⟨hc, hr, hm⟩ := s.writeBack_spec r x
  obtain ⟨hc', hr', hm'⟩ := u.writeBack_spec r x
  exact h.committed hc hc' h.pc_add_four (hm'.trans (h.mem_eq.trans hm.symm)) id id (reg_alike_of_written hr hr')

theorem SameMachine.writeHiLo {hi hi' lo lo' : Word} (hhi : u.hi = s.hi → hi' = hi) (hlo : u.lo = s.lo → lo' = lo) :
    AlikeAfter none s u (s.writeHiLo hi lo) (u.writeHiLo hi' lo') := by
  obtain ⟨hc, hr, hm⟩ := s.writeHiLo_spec hi lo
  obtain ⟨hc', hr', hm'⟩ := u.writeHiLo_spec hi' lo'
  exact h.committed hc hc' h.pc_add_four (hm'.trans (h.mem_eq.trans hm.symm)) hhi hlo (reg_alike_of_kept hr hr')

theorem SameMachine.jump (a : Word) : AlikeAfter none s u (s.jump a) (u.jump a) := by
  obtain ⟨hc, hr, hm⟩ := s.jump_spec a
  obtain ⟨hc', hr', hm'⟩ := u.jump_spec a
  exact h.committed hc hc' rfl (hm'.trans (h.mem_eq.trans hm.symm)) id id (reg_alike_of_kept hr hr')

theorem SameMachine.jumpAndLink (r : Reg) (x a : Word) :
    AlikeAfter (some r) s u (s.jumpAndLink r x a) (u.jumpAndLink r x a) := by
  obtain ⟨hc, hr, hm⟩ := s.jumpAndLink_spec r x a
  obtain ⟨hc', hr', hm'⟩ := u.jumpAndLink_spec r x a
  exact h.committed hc hc' rfl (hm'.trans (h.mem_eq.trans hm.symm)) id id (reg_alike_of_written hr hr')

theorem SameMachine.branch (taken : Bool) (a : Word) : AlikeAfter none s u (s.branch taken a) (u.branch taken a) := by
  cases taken
  · exact h.advance
  · exact h.jump a

theorem SameMachine.halt (w : Word) : AlikeAfter none s u (s.advance.halt s.pc w) (u.advance.halt u.pc w) := by
  obtain ⟨⟨hpc, hmem, -, hcount, -, hconfig⟩, hhi, hlo, hreg, hdest⟩ := h.advance
  exact ⟨⟨hpc, hmem, rfl, hcount, by simp [h.pc_eq], hconfig⟩, hhi, hlo, hreg, hdest⟩

theorem SameMachine.raise (e : HaltReason) (w a : Option Word) : AlikeAfter d s u (s.raise e w a) (u.raise e w a) :=
  ⟨⟨h.pc_eq, h.mem_eq, rfl, h.count_eq, by simp [h.pc_eq], h.config_eq⟩, id, id, fun _ => id, by simp⟩

theorem SameMachine.load (i : Instr) (ea : Word) (n : Size) (extend : Word → Word) (r : Reg) :
    AlikeResults (some r) s u (s.load i ea n extend r) (u.load i ea n extend r) := by
  unfold State.load
  rw [h.refusesAccess_eq, State.memRead_congr h.config_eq h.mem_eq]
  split
  · exact .next (h.raise _ _ _)
  · exact .next (h.writeBack _ _)

theorem SameMachine.store (i : Instr) (ea : Word) (n : Size) (x : Word) :
    AlikeResults none s u (s.store i ea n x) (u.store i ea n x) := by
  unfold State.store
  rw [h.refusesAccess_eq]
  split
  · exact .next (h.raise _ _ _)
  · obtain ⟨hc, hr, hm⟩ := s.memWrite_commit_spec ea x n
    obtain ⟨hc', hr', hm'⟩ := u.memWrite_commit_spec ea x n
    have hmem : (u.beginStep.memWrite ea n x).mem = (s.beginStep.memWrite ea n x).mem :=
      State.memWrite_mem_congr (s := s.beginStep) (t := u.beginStep) h.config_eq h.mem_eq ea x n
    exact .next (h.committed hc hc' h.pc_add_four (hm'.trans (hmem.trans hm.symm)) id id (reg_alike_of_kept hr hr'))

end Operations

/-- The effective address depends on the base register alone. -/
theorem SameMachine.effectiveAddress_eq {s u : State} (h : SameMachine s u) {f : IFields}
    (hrs : u.reg f.rs = s.reg f.rs) : u.effectiveAddress f = s.effectiveAddress f := by
  rw [State.effectiveAddress, h.config_eq, hrs, State.effectiveAddress]

/-- The operand of a shift depends on the register that SHIFT_SOURCE selects (R139). -/
theorem SameMachine.shiftOperand_eq {s u : State} (h : SameMachine s u) {f : RFields}
    (hr : ∀ r ∈ (Instr.sll f).gprsRead s.config, u.reg r = s.reg r) : u.shiftOperand f = s.shiftOperand f := by
  unfold State.shiftOperand
  unfold Instr.gprsRead at hr
  rw [h.config_eq]
  cases hs : s.config.shiftSource <;> simpa [hs] using hr

theorem SameMachine.syscallHalts_eq {s u : State} (h : SameMachine s u) (h2 : u.reg 2#5 = s.reg 2#5) :
    u.syscallHalts = s.syscallHalts := by
  rw [State.syscallHalts, h.config_eq, h2, State.syscallHalts]

/-- The two sources of an instruction that reads rs and rt. -/
theorem SameOperands.reg_pair {i : Instr} {s u : State} (h : SameOperands i s u) {a b : Reg}
    (hi : i.gprsRead s.config = [a, b]) : u.reg a = s.reg a ∧ u.reg b = s.reg b := by
  simpa [hi] using h.reg_eq

/-- The source of an instruction that reads one register. -/
theorem SameOperands.reg_single {i : Instr} {s u : State} (h : SameOperands i s u) {a : Reg}
    (hi : i.gprsRead s.config = [a]) : u.reg a = s.reg a := by
  simpa [hi] using h.reg_eq

/-- Every instruction answers alike on machines that agree in what it reads (R27, R30). -/
theorem exec_alike {i : Instr} {s u : State} (h : SameOperands i s u) :
    AlikeResults i.gprWritten s u (exec i s) (exec i u) := by
  have hm := h.toSameMachine
  cases i with
  | sll f | srl f | sra f =>
    simp only [exec, execSll, execSrl, execSra, hm.shiftOperand_eq (f := f) h.reg_eq]
    exact .next (hm.writeBack _ _)
  | mfhi f =>
    simp only [exec, execMfhi, h.hi_eq ⟨f, rfl⟩]
    exact .next (hm.writeBack _ _)
  | mflo f =>
    simp only [exec, execMflo, h.lo_eq ⟨f, rfl⟩]
    exact .next (hm.writeBack _ _)
  | add f | addu f | sub f | subu f | and f | or f | xor f | nor f | slt f =>
    simp only [exec, execAdd, execAddu, execSub, execSubu, execAnd, execOr, execXor, execNor, execSlt, h.reg_pair rfl]
    exact .next (hm.writeBack _ _)
  | addi f | addiu f | slti f | andi f | ori f | xori f =>
    simp only [exec, execAddi, execAddiu, execSlti, execAndi, execOri, execXori, h.reg_single rfl]
    exact .next (hm.writeBack _ _)
  | lui f => exact .next (hm.writeBack _ _)
  | mult f | multu f =>
    simp only [exec, execMult, execMultu, h.reg_pair rfl]
    exact .next (hm.writeHiLo (fun _ => rfl) fun _ => rfl)
  | mthi f =>
    simp only [exec, execMthi, h.reg_single rfl]
    exact .next (hm.writeHiLo (fun _ => rfl) id)
  | mtlo f =>
    simp only [exec, execMtlo, h.reg_single rfl]
    exact .next (hm.writeHiLo id fun _ => rfl)
  | div f =>
    simp only [exec, execDiv, hm.config_eq, h.reg_pair rfl]
    split
    · exact .next (hm.raise _ _ _)
    · split
      · exact .refused _
      · exact .next (hm.writeHiLo (fun _ => rfl) fun _ => rfl)
  | divu f =>
    simp only [exec, execDivu, h.reg_pair rfl]
    split
    · exact .next (hm.raise _ _ _)
    · exact .next (hm.writeHiLo (fun _ => rfl) fun _ => rfl)
  | beq f | bne f =>
    simp only [exec, execBeq, execBne, hm.branchTarget_eq, h.reg_pair rfl]
    exact .next (hm.branch _ _)
  | blez f | bgtz f | bltz f | bgez f =>
    simp only [exec, execBlez, execBgtz, execBltz, execBgez, hm.branchTarget_eq, h.reg_single rfl]
    exact .next (hm.branch _ _)
  | lw f | lh f | lb f =>
    simp only [exec, execLw, execLh, execLb, hm.effectiveAddress_eq (h.reg_single rfl)]
    exact hm.load _ _ _ _ _
  | sw f | sh f | sb f =>
    simp only [exec, execSw, execSh, execSb, hm.effectiveAddress_eq (h.reg_pair rfl).1, h.reg_pair rfl]
    exact hm.store _ _ _ _
  | j f =>
    simp only [exec, execJ, hm.jumpTarget_eq]
    exact .next (hm.jump _)
  | jr f =>
    simp only [exec, execJr, h.reg_single rfl]
    exact .next (hm.jump _)
  | jal f =>
    simp only [exec, execJal, hm.linkValue_eq, hm.jumpTarget_eq]
    exact .next (hm.jumpAndLink _ _ _)
  | jalr f =>
    simp only [exec, execJalr, hm.linkValue_eq, h.reg_single rfl]
    exact .next (hm.jumpAndLink _ _ _)
  | syscall f =>
    simp only [exec, execSyscall, hm.syscallHalts_eq (h.reg_single rfl)]
    split
    · exact .next (hm.halt _)
    · exact .next hm.advance

section Results

variable {d : Option Reg} {s u : State} {out out' : Result}

theorem AlikeResults.alikeAfter {t v : State} (h : AlikeResults d s u out out') (ht : out = .next t)
    (hv : out' = .next v) : AlikeAfter d s u t v := by
  subst ht hv
  cases h with
  | next h => exact h

theorem AlikeResults.exists_next_iff (h : AlikeResults d s u out out') :
    (∃ t, out = .next t) ↔ ∃ v, out' = .next v := by
  cases h <;> simp

theorem AlikeResults.refused_iff (h : AlikeResults d s u out out') (e : Refusal) :
    out = .refused e ↔ out' = .refused e := by
  cases h <;> simp

theorem AlikeResults.fault_iff (h : AlikeResults d s u out out') (e : Fault) : out = .fault e ↔ out' = .fault e := by
  cases h <;> simp

end Results

/-- Settles O45: states that differ in their general registers only agree in all else an instruction reads. -/
theorem onlyTheSourceRegistersAreRead : Obligations.OnlyTheSourceRegistersAreRead := by
  intro i s regs u hu
  have h : SameOperands i s u := ⟨⟨rfl, rfl, rfl, rfl, rfl, rfl⟩, hu, fun _ => rfl, fun _ => rfl⟩
  refine ⟨(exec_alike h).refused_iff, (exec_alike h).fault_iff, fun t v ht hv => ?_⟩
  obtain ⟨hm, hhi, hlo, -, hdest⟩ := (exec_alike h).alikeAfter ht hv
  exact ⟨hm.pc_eq, hhi rfl, hlo rfl, hm.mem_eq, hm.run_eq, hm.count_eq, hm.report_eq, hm.config_eq, hdest⟩

/-! #### What the writers of HI and LO write -/

theorem exec_div_hiLo {s t : State} {f : RFields} (h0 : s.reg f.rt ≠ 0#32) (h : exec (.div f) s = .next t) :
    t.hi = BitVec.ofInt 32 ((s.reg f.rs).toInt.tmod (s.reg f.rt).toInt) ∧
      t.lo = BitVec.ofInt 32 ((s.reg f.rs).toInt.tdiv (s.reg f.rt).toInt) := by
  rw [exec, execDiv, if_neg h0] at h
  split at h
  · cases h
  · cases h
    exact ⟨rfl, rfl⟩

theorem exec_divu_hiLo {s t : State} {f : RFields} (h0 : s.reg f.rt ≠ 0#32) (h : exec (.divu f) s = .next t) :
    t.hi = BitVec.ofNat 32 ((s.reg f.rs).toNat % (s.reg f.rt).toNat) ∧
      t.lo = BitVec.ofNat 32 ((s.reg f.rs).toNat / (s.reg f.rt).toNat) := by
  rw [exec, execDivu, if_neg h0] at h
  cases h
  exact ⟨rfl, rfl⟩

/-- The multiplies and the divides write HI and LO from the general registers alone. -/
theorem exec_hiLo_congr {i : Instr} {s u t v : State} {f : RFields} (hreg : u.reg = s.reg)
    (hi : i = .mult f ∨ i = .multu f ∨ (i = .div f ∨ i = .divu f) ∧ s.reg f.rt ≠ 0#32) (ht : exec i s = .next t)
    (hv : exec i u = .next v) : v.hi = t.hi ∧ v.lo = t.lo := by
  rcases hi with rfl | rfl | ⟨rfl | rfl, h0⟩
  · cases ht
    cases hv
    rw [hreg]
    exact ⟨rfl, rfl⟩
  · cases ht
    cases hv
    rw [hreg]
    exact ⟨rfl, rfl⟩
  · obtain ⟨h1, h2⟩ := exec_div_hiLo h0 ht
    obtain ⟨h1', h2'⟩ := exec_div_hiLo (hreg ▸ h0) hv
    rw [h1, h2, h1', h2', hreg]
    exact ⟨rfl, rfl⟩
  · obtain ⟨h1, h2⟩ := exec_divu_hiLo h0 ht
    obtain ⟨h1', h2'⟩ := exec_divu_hiLo (hreg ▸ h0) hv
    rw [h1, h2, h1', h2', hreg]
    exact ⟨rfl, rfl⟩

/-- Settles O46: `exec_frame` for the writers, `exec_alike` for the readers. -/
theorem hiLoBelongToTheirInstructions : Obligations.HiLoBelongToTheirInstructions := by
  refine fun i s => ⟨fun t ht => ⟨(exec_frame ht).hi_eq, (exec_frame ht).lo_eq⟩, ?_⟩
  intro hi lo hne u
  have h : SameOperands i s u := ⟨⟨rfl, rfl, rfl, rfl, rfl, rfl⟩, fun _ _ => rfl,
    fun ⟨f, hf⟩ => absurd hf (hne f).1, fun ⟨f, hf⟩ => absurd hf (hne f).2⟩
  refine ⟨(exec_alike h).exists_next_iff, fun t v ht hv => ?_⟩
  obtain ⟨hm, -, -, hreg, -⟩ := (exec_alike h).alikeAfter ht hv
  refine ⟨hm.pc_eq, fun r => hreg r rfl, hm.mem_eq, hm.run_eq, hm.count_eq, hm.report_eq, hm.config_eq, ?_, ?_, ?_⟩
  · rintro ⟨f, hf⟩
    exact exec_hiLo_congr (s := s) (u := u) rfl hf ht hv
  · rintro ⟨f, rfl⟩
    cases ht
    cases hv
    rfl
  · rintro ⟨f, rfl⟩
    cases ht
    cases hv
    rfl

end Sys2Proof.Machine
end

section
/-! ### Address decoding and aligned accesses (20_memory.md R51, R52, R58) -/

namespace Sys2Proof

/-! #### The segment an address resolves to -/

theorem Segment.disjoint_comm (g h : Segment) : g.disjoint h = h.disjoint g := by
  rw [Bool.eq_iff_iff]
  simp [Segment.disjoint]
  tauto

/-- Disjoint segments share no address (R51). -/
theorem Segment.not_contains_of_disjoint {g h : Segment} (hd : g.disjoint h = true) {a : Word}
    (ha : g.contains a = true) : ¬h.contains a = true := by
  simp only [Segment.disjoint, Bool.or_eq_true, beq_iff_eq, decide_eq_true_eq] at hd
  rw [Segment.contains_iff] at ha ⊢
  omega

theorem SegmentName.mem_names (n : SegmentName) : n ∈ [SegmentName.text, .data, .ktext, .kdata] := by
  cases n <;> decide

/-- R51 (a), for any two names. -/
theorem SegmentMap.segment_disjoint {m : SegmentMap} (hm : m.wf = true) {n k : SegmentName} (hne : n ≠ k) :
    (m.segment n).disjoint (m.segment k) = true := by
  have hp : [SegmentName.text, .data, .ktext, .kdata].Pairwise
      fun n k => (m.segment n).disjoint (m.segment k) = true := by
    simp only [SegmentMap.wf, Bool.and_eq_true] at hm
    simp [SegmentMap.segment, hm]
  have : Std.Symm fun n k => (m.segment n).disjoint (m.segment k) = true :=
    ⟨fun n k h => (Segment.disjoint_comm _ _).trans h⟩
  exact hp.forall n.mem_names k.mem_names hne

/-- Address decoding finds a segment that contains the address, where there is one. -/
theorem SegmentMap.contains_of_seg {m : SegmentMap} {a : Word} {n : SegmentName} (h : m.seg a = some n) :
    (m.segment n).contains a = true :=
  List.find?_some (p := fun n => (m.segment n).contains a) h

theorem SegmentMap.seg_eq_none_iff (m : SegmentMap) (a : Word) :
    m.seg a = none ↔ ∀ n, ¬(m.segment n).contains a = true := by
  simp only [SegmentMap.seg, List.find?_eq_none]
  exact ⟨fun h n => h n n.mem_names, fun h n _ => h n⟩

/-- Under R51 an address resolves to the one segment whose range contains it. -/
theorem SegmentMap.seg_eq_some_iff {m : SegmentMap} (hm : m.wf = true) (a : Word) (n : SegmentName) :
    m.seg a = some n ↔ (m.segment n).contains a = true := by
  refine ⟨SegmentMap.contains_of_seg, fun hn => ?_⟩
  cases hs : m.seg a with
  | none => exact absurd hn ((m.seg_eq_none_iff a).1 hs n)
  | some k =>
    by_contra hne
    have hd := SegmentMap.segment_disjoint hm (n := k) (k := n) fun e => hne (congrArg some e)
    exact Segment.not_contains_of_disjoint hd (SegmentMap.contains_of_seg hs) hn

/-- Settles O52: `seg` finds a range that contains the address, and under R51 no other range does. -/
theorem addressesResolveToOneSegment : Obligations.AddressesResolveToOneSegment := by
  intro m hm a
  simp only [← Segment.contains_iff]
  exact ⟨SegmentMap.seg_eq_some_iff hm a, m.seg_eq_none_iff a⟩

end Sys2Proof

namespace Sys2Proof.Machine

/-! #### The bytes of an aligned access -/

/-- The bytes of an aligned access do not wrap. -/
theorem Size.toNat_add_of_aligned {n : Size} {a : Word} (h : a.toNat % n.bytes = 0) {k : Nat} (hk : k < n.bytes) :
    (a + BitVec.ofNat 32 k).toNat = a.toNat + k := by
  have ha := a.isLt
  rw [BitVec.toNat_add, BitVec.toNat_ofNat]
  cases n <;> simp only [Size.bytes] at h hk <;> omega

/-- The bytes of an aligned access lie in one aligned group of four. -/
theorem Size.group_of_aligned {n : Size} {a : Word} (h : a.toNat % n.bytes = 0) {k : Nat} (hk : k < n.bytes) :
    (a + BitVec.ofNat 32 k).toNat / 4 = a.toNat / 4 := by
  rw [Size.toNat_add_of_aligned h hk]
  cases n <;> simp only [Size.bytes] at h hk <;> omega

/-- Settles O53: the bytes of an aligned access are one group, and R51 puts a group in one segment. -/
theorem alignedAccessesStayInOneSegment : Obligations.AlignedAccessesStayInOneSegment :=
  fun _ _ _ hm ha _ hk => SegmentMap.seg_of_group hm (Size.group_of_aligned ha hk)

theorem mapped_of_aligned {c : Config} (hc : c.wf = true) {n : Size} {a : Word} (h : a.toNat % n.bytes = 0)
    {k : Nat} (hk : k < n.bytes) : c.mapped (a + BitVec.ofNat 32 k) = c.mapped a :=
  Config.mapped_of_group hc (Size.group_of_aligned h hk)

/-- The byte at a mapped address. -/
theorem State.loadByte_mapped {s : State} {a : Word} (h : s.config.mapped a = true) :
    s.loadByte a = s.mem.read a.toNat := if_pos h

/-! #### A read as the sum of its bytes -/

/-- A byte put below a value of at most 24 bits. -/
theorem toNat_setWidth_or_shiftLeft (b : Byte) {r : Word} (hr : r.toNat < 2 ^ 24) :
    (b.setWidth 32 ||| r <<< 8).toNat = b.toNat + r.toNat * 2 ^ 8 := by
  rw [BitVec.toNat_or, BitVec.toNat_setWidth_of_le (by decide), BitVec.toNat_shiftLeft, Nat.shiftLeft_eq,
    Nat.mod_eq_of_lt (by omega), Nat.or_comm, ← Nat.shiftLeft_eq, ← Nat.shiftLeft_add_eq_or_of_lt b.isLt,
    Nat.add_comm]

theorem State.toNat_readBytes_lt (s : State) {n : Nat} (hn : n ≤ 3) (a : Word) :
    (s.readBytes a n).toNat < 2 ^ (8 * n) := by
  induction n generalizing a with
  | zero => simp [State.readBytes]
  | succ n ih =>
    have hlt := ih (by omega) (a + 1#32)
    have hb := (s.loadByte a).isLt
    rw [State.readBytes, toNat_setWidth_or_shiftLeft _ (hlt.trans_le (Nat.pow_le_pow_right (by decide) (by omega))),
      Nat.mul_add, Nat.pow_add]
    omega

/-- A read of up to four bytes is the sum of its bytes, each shifted to its place (R58). -/
theorem State.toNat_readBytes (s : State) {n : Nat} (hn : n ≤ 4) (a : Word) :
    (s.readBytes a n).toNat =
      ((List.range n).map fun k => (s.loadByte (a + BitVec.ofNat 32 k)).toNat * 2 ^ (8 * k)).sum := by
  induction n generalizing a with
  | zero => rfl
  | succ n ih =>
    have hlt : (s.readBytes (a + 1#32) n).toNat < 2 ^ 24 :=
      (s.toNat_readBytes_lt (by omega) _).trans_le (Nat.pow_le_pow_right (by decide) (by omega))
    have hk : ∀ k, a + 1#32 + BitVec.ofNat 32 k = a + BitVec.ofNat 32 (k + 1) := fun k => by
      rw [Nat.add_comm, BitVec.ofNat_add, BitVec.add_assoc]
    rw [State.readBytes, toNat_setWidth_or_shiftLeft _ hlt, ih (by omega), List.range_succ_eq_map, List.map_cons,
      List.sum_cons, ← List.sum_map_mul_right, List.map_map]
    simp [Function.comp_def, hk, Nat.mul_add, Nat.pow_add, Nat.mul_assoc]

theorem Size.bytes_le_four (n : Size) : n.bytes ≤ 4 := by cases n <;> decide

theorem State.toNat_memRead (s : State) (a : Word) (n : Size) :
    (s.memRead a n).toNat =
      ((List.range n.bytes).map fun k => (s.loadByte (a + BitVec.ofNat 32 k)).toNat * 2 ^ (8 * k)).sum :=
  s.toNat_readBytes n.bytes_le_four a

/-- A read whose bytes lie in no segment gives 0 (R57). -/
theorem State.memRead_unmapped {s : State} {a : Word} {n : Size}
    (h : ∀ k, k < n.bytes → s.config.mapped (a + BitVec.ofNat 32 k) = false) : s.memRead a n = 0#32 := by
  refine BitVec.eq_of_toNat_eq ((s.toNat_memRead a n).trans (List.sum_eq_zero fun x hx => ?_))
  obtain ⟨k, hk, rfl⟩ := List.mem_map.1 hx
  simp [State.loadByte_unmapped (h k (List.mem_range.1 hk))]

/-- Settles O54: the bytes of an aligned access are mapped together, and none wraps. -/
theorem alignedReadsFollowTheFormula : Obligations.AlignedReadsFollowTheFormula := by
  intro s n a hc ha
  split
  · next hm =>
    refine (s.toNat_memRead a n).trans (congrArg List.sum (List.map_congr_left fun k hk => ?_))
    have hk := List.mem_range.1 hk
    rw [State.loadByte_mapped ((mapped_of_aligned hc ha hk).trans hm), Size.toNat_add_of_aligned ha hk]
  · next hm =>
    exact congrArg BitVec.toNat <| State.memRead_unmapped fun k hk =>
      (mapped_of_aligned hc ha hk).trans (Bool.eq_false_iff.2 hm)

/-- Settles O55: no byte of the access lies in a segment. -/
theorem outOfRangeAccessIsSilent : Obligations.OutOfRangeAccessIsSilent := by
  intro s n a v hc ha hm
  have h : ∀ k, k < n.bytes → s.config.mapped (a + BitVec.ofNat 32 k) = false := fun k hk =>
    (mapped_of_aligned hc ha hk).trans hm
  exact ⟨State.memRead_unmapped h, State.writeBytes_unmapped n.bytes s a v h⟩

end Sys2Proof.Machine
end

section
/-! ### Stored words and the bytes around them (20_memory.md R53, R54, R59) -/

namespace Sys2Proof.Machine

/-! #### Reading a stored word -/

/-- Byte `k` of an aligned access after it stored a value (R53). -/
theorem State.loadByte_memWrite_add {s : State} (hm : Memory.wf s.mem) (hc : s.config.wf = true) {n : Size} {a : Word}
    (ha : a.toNat % n.bytes = 0) (hmap : s.config.mapped a = true) (v : Word) {k : Nat} (hk : k < n.bytes) :
    (s.memWrite a n v).loadByte (a + BitVec.ofNat 32 k) = v.extractLsb' (8 * k) 8 := by
  have hoff : (a + BitVec.ofNat 32 k - a).toNat = k := by
    have := n.bytes_le_four
    rw [add_sub_cancel_left, BitVec.toNat_ofNat]
    omega
  rw [State.loadByte_memWrite hm, hoff, if_pos ⟨hk, (mapped_of_aligned hc ha hk).trans hmap⟩]

theorem wordOfBytes_extractLsb' (w : Word) :
    wordOfBytes (w.extractLsb' 0 8) (w.extractLsb' 8 8) (w.extractLsb' 16 8) (w.extractLsb' 24 8) = w := by
  have h : w.extractLsb' 24 8 ++ w.extractLsb' 16 8 ++ w.extractLsb' 8 8 ++ w.extractLsb' 0 8 = w.extractLsb' 0 32 := by
    rw [extractLsb'_join w 16 8 8, extractLsb'_join w 8 _ 8, extractLsb'_join w 0 _ 8]
  exact h.trans BitVec.extractLsb'_eq_self

section
variable {s : State} (hs : s.Inv) {a : Word} (ha : a.toNat % 4 = 0) (hmap : s.config.mapped a = true) (v : Word)
include hs ha hmap

theorem State.Inv.loadByte_memWrite_word {k : Nat} (hk : k < 4) :
    (s.memWrite a .word v).loadByte (a + BitVec.ofNat 32 k) = v.extractLsb' (8 * k) 8 :=
  State.loadByte_memWrite_add (n := .word) hs.mem_wf hs.config_wf ha hmap v hk

/-- A word read gives back the word stored (R54). -/
theorem State.Inv.memRead_memWrite_word : (s.memWrite a .word v).memRead a .word = v := by
  have h0 := hs.loadByte_memWrite_word ha hmap v (k := 0) (by decide)
  rw [BitVec.add_zero] at h0
  rw [State.memRead_word, h0, hs.loadByte_memWrite_word ha hmap v (k := 1) (by decide),
    hs.loadByte_memWrite_word ha hmap v (k := 2) (by decide),
    hs.loadByte_memWrite_word ha hmap v (k := 3) (by decide)]
  exact wordOfBytes_extractLsb' v

/-- A halfword read inside the stored word gives its two neighbouring bytes (R54). -/
theorem State.Inv.memRead_memWrite_half {k : Nat} (hk : k < 3) :
    (s.memWrite a .word v).memRead (a + BitVec.ofNat 32 k) .half = (v.extractLsb' (8 * k) 16).setWidth 32 := by
  have hsucc : a + BitVec.ofNat 32 k + 1#32 = a + BitVec.ofNat 32 (k + 1) := by
    rw [BitVec.add_assoc, BitVec.ofNat_add]
  rw [State.memRead_half, hsucc, hs.loadByte_memWrite_word ha hmap v (by omega),
    hs.loadByte_memWrite_word ha hmap v (by omega), Nat.mul_add, extractLsb'_join v (8 * k) 8 8]

end

/-- Settles O56: each byte of the word is where R53 puts it, and neighbouring bytes join. -/
theorem mixedWidthReadsSeeTheStoredWord : Obligations.MixedWidthReadsSeeTheStoredWord := by
  intro s a v hs ha hmap
  refine ⟨hs.memRead_memWrite_word ha hmap v, fun k hk => ?_, ?_,
    hs.memRead_memWrite_half ha hmap v (k := 2) (by decide)⟩
  · rw [State.memRead_byte, hs.loadByte_memWrite_word ha hmap v hk]
  · have h := hs.memRead_memWrite_half ha hmap v (k := 0) (by decide)
    rwa [BitVec.add_zero] at h

/-! #### The bytes a store leaves alone -/

/-- A byte write leaves every other address alone, in a memory of any form. -/
theorem State.loadByte_storeByte_other (s : State) {a k : Word} (b : Byte) (h : k ≠ a) :
    (s.storeByte a b).loadByte k = s.loadByte k := by
  have hne : k.toNat ≠ a.toNat := fun e => h (BitVec.eq_of_toNat_eq e)
  unfold State.storeByte State.loadByte
  split
  · rw [Memory.read_write_other _ _ hne]
  · rfl

/-- A wide write leaves every byte alone that is not one of its own (R59). -/
theorem State.loadByte_writeBytes_outside (s : State) {n : Nat} (a v : Word) {b : Word} (h : n ≤ (b - a).toNat) :
    (s.writeBytes a v n).loadByte b = s.loadByte b := by
  induction n generalizing s a v with
  | zero => rfl
  | succ n ih =>
    have hne : b ≠ a := by
      rintro rfl
      simp at h
    have hsub : (b - (a + 1#32)).toNat = (b - a).toNat - 1 := by
      rw [← sub_sub]
      generalize b - a = d at h ⊢
      bv_omega
    rw [State.writeBytes, ih _ _ _ (by omega), State.loadByte_storeByte_other s _ hne]

/-- A store that answers a state leaves every byte alone that is not one of its own, performed or refused. -/
theorem State.loadByte_store_outside {s t : State} {i : Instr} {ea v a : Word} {n : Size}
    (h : s.store i ea n v = .next t) (ha : n.bytes ≤ (a - ea).toNat) : t.loadByte a = s.loadByte a := by
  rcases s.store_spec i ea n v with ⟨-, he⟩ | ⟨-, he⟩ <;> cases he.symm.trans h
  · rfl
  · obtain ⟨-, -, hm⟩ := s.memWrite_commit_spec ea v n
    calc
      _ = (s.beginStep.memWrite ea n v).loadByte a := State.loadByte_congr (by simp) hm a
      _ = s.loadByte a := State.loadByte_writeBytes_outside s.beginStep ea v ha

/-- An instruction that is no store leaves memory alone; the cases are those of `exec_cases`, in its order. -/
theorem exec_mem_of_not_store {i : Instr} {s t : State} (hi : ∀ f, i ≠ .sw f ∧ i ≠ .sh f ∧ i ≠ .sb f)
    (h : exec i s = .next t) : t.mem = s.mem := by
  rcases exec_cases i s with ⟨r, v, -, -, he⟩ | ⟨f, x, y, -, -, he⟩ | ⟨f, n, -, hf, -, -, -⟩ | ⟨f, b, -, -, he⟩ |
    ⟨a, -, -, he⟩ | ⟨r, a, -, -, he⟩ | ⟨f, -, -, he⟩ | ⟨f, -, -, he⟩ | ⟨e, a, -, he⟩ | ⟨f, -, -, -, -, he⟩
  case inr.inr.inl => simp [hi f] at hf
  all_goals
    rw [he] at h
    cases h
  · exact (s.writeBack_spec r v).2.2
  · exact (s.writeHiLo_spec x y).2.2
  · exact (s.branch_spec b _).2.2
  · exact (s.jump_spec a).2.2
  · exact (s.jumpAndLink_spec r _ a).2.2
  · exact s.advance_spec.2.2
  · exact s.advance_spec.2.2
  · rfl

/-- Settles O47: `exec_mem_of_not_store` for the other instructions, `State.loadByte_store_outside` for the stores. -/
theorem onlyStoresChangeMemory : Obligations.OnlyStoresChangeMemory := by
  refine fun i s t h => ⟨fun hi => exec_mem_of_not_store hi h, fun f n hi hn a ha => ?_⟩
  rcases hi with rfl | rfl | rfl <;> cases hn <;> exact State.loadByte_store_outside h ha

/-! #### Fetching a stored word -/

/-- A RUNNING machine with an aligned PC runs the instruction that the word read at its PC decodes to. -/
theorem step_of_memRead {s : State} {a w : Word} {i : Instr} (hrun : s.run = .running) (hpc : s.pc = a)
    (ha : a.toNat % 4 = 0) (hw : s.memRead a .word = w) (hd : decode w = .instr i) : step s = exec i s := by
  subst hpc
  refine step_of_instr hrun (fun _ => ha) ?_
  rw [← State.memRead_pc, hw, hd]

theorem State.withFetchWord_eq (s : State) (w : Nat) :
    s.withFetchWord 32 w = s.memWrite s.pc .word (BitVec.ofNat 32 w) := by
  have h : BitVec.ofNat 32 (w % 2 ^ 32) = BitVec.ofNat 32 w := BitVec.eq_of_toNat_eq (by simp)
  rw [State.withFetchWord, State.placeWord, h]

/-- Settles O38: the fetch reads back the word placed. -/
theorem placedWordIsTheNextInstruction : Obligations.PlacedWordIsTheNextInstruction := by
  intro s w i hs hrun hpc hmap hd
  rw [State.withFetchWord_eq]
  exact step_of_memRead ((s.memWrite_run _ _ _).trans hrun) (congrArg Proc.pc (s.memWrite_current _ _ _)) hpc
    (hs.memRead_memWrite_word hpc hmap _) hd

theorem State.store_performed {s : State} {ea : Word} {n : Size} (h : s.Performs ea n) (i : Instr) (v : Word) :
    s.store i ea n v = .next (s.beginStep.memWrite ea n v).commit :=
  if_neg (by simp [(s.performs_iff ea n).1 h])

theorem exec_sw (f : IFields) (s : State) :
    exec (.sw f) s = s.store (.sw f) (s.effectiveAddress f) .word (s.reg f.rt) := rfl

/-- A read after a committed store is a read after its `MemWrite`. -/
theorem State.memRead_memWrite_commit (s : State) (ea v a : Word) (n k : Size) :
    (s.beginStep.memWrite ea n v).commit.memRead a k = (s.memWrite ea n v).memRead a k :=
  State.memRead_congr (s := s.memWrite ea n v) (t := (s.beginStep.memWrite ea n v).commit) (by simp)
    (State.memWrite_mem_congr (s := s) (t := s.beginStep) rfl rfl ea v n) a k

/-- Settles O58: SW advances to the address it stored at, where the fetch reads back the word. -/
theorem storedWordIsFetchedNext : Obligations.StoredWordIsFetchedNext := by
  intro s t f i hs hrun hpc hea hmap hd h
  have hpc4 : (s.pc + 4#32).toNat % 4 = 0 := by
    rw [BitVec.toNat_add, BitVec.toNat_ofNat]
    omega
  have hsw : exec (.sw f) s = .next (s.beginStep.memWrite (s.pc + 4#32) .word (s.reg f.rt)).commit := by
    rw [exec_sw, hea, State.store_performed fun _ => hpc4]
  have ht : t = (s.beginStep.memWrite (s.pc + 4#32) .word (s.reg f.rt)).commit :=
    Host.Outcome.next.inj (h.symm.trans hsw)
  obtain ⟨hc, -, -⟩ := s.memWrite_commit_spec (s.pc + 4#32) (s.reg f.rt) .word
  rw [← ht] at hc
  refine step_of_memRead (hc.run_eq.trans hrun) hc.pc_eq hpc4 ?_ hd
  rw [ht, State.memRead_memWrite_commit, hs.memRead_memWrite_word hpc4 hmap]

end Sys2Proof.Machine
end

section
/-! ### Fetches from no segment and refused accesses (20_memory.md R55 to R57, R61) -/

namespace Sys2Proof.Machine

/-- The word 0, which every address in no segment reads as, is a no-op (R92). -/
theorem decode_zero : decode 0#32 = .instr (.sll { rs := 0#5, rt := 0#5, rd := 0#5, shamt := 0#5 }) := by decide

/-- Settles O31: the word fetched is 0, a shift into register 0. -/
theorem fetchOutsideSegmentsIsNoOp : Obligations.FetchOutsideSegmentsIsNoOp := by
  intro s hc hrun hpc hmap
  have hw : s.memRead s.pc .word = 0#32 :=
    State.memRead_unmapped fun k hk => (mapped_of_aligned (n := .word) hc hpc hk).trans hmap
  obtain ⟨ht, hreg, hmem⟩ :=
    s.writeBack_spec 0#5 (s.shiftOperand { rs := 0#5, rt := 0#5, rd := 0#5, shamt := 0#5 } <<< 0#5)
  refine ⟨_, step_of_memRead hrun rfl hpc hw decode_zero, ht.pc_eq, fun r => ?_, ht.hi_eq, ht.lo_eq, hmem,
    ht.run_eq.trans hrun, ht.count_eq, ht.report_eq⟩
  rw [hreg, if_neg fun h => h.2 h.1]

/-- `State.raise` leaves the frame of a fault (R106). -/
theorem isRaised_raise (s : State) (e : HaltReason) (w a : Option Word) :
    IsRaised (.next (s.raise e w a)) s { reason := e, pc := s.pc, word := w, addr := a } :=
  ⟨_, rfl, rfl, rfl, rfl, rfl, rfl, rfl, rfl⟩

theorem exec_isRaised_of_not_performed {i : Instr} {s : State} {f : IFields} {n : Size}
    (hi : i = .lw f ∨ i = .lh f ∨ i = .sw f ∨ i = .sh f) (hn : accessSize i = some n)
    (h : ¬s.Performs (s.effectiveAddress f) n) :
    IsRaised (exec i s) s { reason := .alignmentViolation, pc := s.pc, word := some (encode i),
                            addr := some (s.effectiveAddress f) } :=
  exec_not_performed hi hn h ▸ isRaised_raise s _ _ _

/-- Settles O14, for each of the four accesses of more than one byte. -/
theorem misalignedDataAccessFaults : Obligations.MisalignedDataAccessFaults :=
  fun _ _ => ⟨exec_isRaised_of_not_performed (by simp) rfl, exec_isRaised_of_not_performed (by simp) rfl,
    exec_isRaised_of_not_performed (by simp) rfl, exec_isRaised_of_not_performed (by simp) rfl⟩

/-- Settles O30: the fetch is refused before it reads. -/
theorem misalignedFetchFaultsBeforeDecoding : Obligations.MisalignedFetchFaultsBeforeDecoding := by
  intro s hrun hpolicy hpc
  rw [step_of_refused_fetch hrun fun h => hpc (h hpolicy)]
  exact isRaised_raise s _ _ _

end Sys2Proof.Machine
end

section
/-! ### The decoder and the opcode table (30_encoding.md R81 to R93)

`decode` looks a word up in four tables, `encode` writes the number of a row of them back, and `opcodeRows` holds the
same rows as masks and matches. `DecodesTo` says once which instruction a word stands for; the decoder, the encoder
and the rows are each tied to it. -/

namespace Sys2Proof

/-! #### Which table a word is looked up in -/

theorem decode_of_opcode_zero {w : Word} (h : opcodeOf w = 0x00#6) :
    decode w = tag (rTable.lookup (functOf w)) (rFieldsOf w) .unmappedFunct := by
  simp [decode, formatOf, h]

theorem decode_of_opcode_jump {w : Word} (h : opcodeOf w = 0x02#6 ∨ opcodeOf w = 0x03#6) :
    decode w = tag (jTable.lookup (opcodeOf w)) (jFieldsOf w) .unmappedOpcode := by
  rcases h with h | h <;> simp [decode, formatOf, h]

theorem decode_of_opcode_regimm {w : Word} (h : opcodeOf w = regimmOpcode) :
    decode w = tag (regimmTable.lookup (rtOf w)) (iFieldsOf w) .unmappedRegimm := by
  simp [decode, formatOf, h, regimmOpcode]

theorem decode_of_opcode_other {w : Word} (h0 : opcodeOf w ≠ 0x00#6)
    (hj : ¬(opcodeOf w = 0x02#6 ∨ opcodeOf w = 0x03#6)) (h1 : opcodeOf w ≠ regimmOpcode) :
    decode w = tag (iTable.lookup (opcodeOf w)) (iFieldsOf w) .unmappedOpcode := by
  simp [decode, formatOf, h0, hj, h1]

/-! #### Table rows -/

/-- In a table without two rows of one key, looking up a key finds exactly the rows that hold it. -/
theorem lookup_eq_some_iff_mem {n : Nat} {β : Type} {l : List (BitVec n × β)} (hl : (l.map Prod.fst).Nodup)
    {k : BitVec n} {v : β} : l.lookup k = some v ↔ (k, v) ∈ l := by
  induction l with
  | nil => simp
  | cons p l ih =>
    obtain ⟨a, b⟩ := p
    obtain ⟨ha, hl⟩ := List.nodup_cons.1 hl
    by_cases hk : k = a
    · subst hk
      have hmem : (k, v) ∉ l := fun h => ha (List.mem_map.2 ⟨_, h, rfl⟩)
      simp [hmem, eq_comm]
    · simp [List.lookup_cons, beq_false_of_ne hk, hk, ih hl]

/-- A table makes an instruction of a word by the row that holds the key. -/
theorem tag_lookup_eq_instr_iff {n : Nat} {α : Type} {l : List (BitVec n × (α → Instr))}
    (hl : (l.map Prod.fst).Nodup) {k : BitVec n} {fields : α} {r : DecodeReject} {i : Instr} :
    tag (l.lookup k) fields r = .instr i ↔ ∃ mk, (k, mk) ∈ l ∧ mk fields = i := by
  simp only [← lookup_eq_some_iff_mem hl]
  cases l.lookup k <;> simp [tag]

theorem rTable_keys_nodup : (rTable.map Prod.fst).Nodup := by decide
theorem iTable_keys_nodup : (iTable.map Prod.fst).Nodup := by decide
theorem regimmTable_keys_nodup : (regimmTable.map Prod.fst).Nodup := by decide
theorem jTable_keys_nodup : (jTable.map Prod.fst).Nodup := by decide

theorem iTable_opcode {row : BitVec 6 × (IFields → Instr)} (h : row ∈ iTable) :
    row.1 ≠ 0x00#6 ∧ ¬(row.1 = 0x02#6 ∨ row.1 = 0x03#6) ∧ row.1 ≠ regimmOpcode := by
  revert row; decide

theorem jTable_opcode {row : BitVec 6 × (JFields → Instr)} (h : row ∈ jTable) :
    row.1 = 0x02#6 ∨ row.1 = 0x03#6 := by
  revert row; decide

/-- The instruction a word stands for, by the table its opcode names (R85 to R88). -/
inductive DecodesTo (w : Word) : Instr → Prop where
  | r {mk : RFields → Instr} (ho : opcodeOf w = 0x00#6) (h : (functOf w, mk) ∈ rTable) :
    DecodesTo w (mk (rFieldsOf w))
  | i {mk : IFields → Instr} (h : (opcodeOf w, mk) ∈ iTable) : DecodesTo w (mk (iFieldsOf w))
  | regimm {mk : IFields → Instr} (ho : opcodeOf w = regimmOpcode) (h : (rtOf w, mk) ∈ regimmTable) :
    DecodesTo w (mk (iFieldsOf w))
  | j {mk : JFields → Instr} (h : (opcodeOf w, mk) ∈ jTable) : DecodesTo w (mk (jFieldsOf w))

theorem DecodesTo.decode_eq {w : Word} {i : Instr} (h : DecodesTo w i) : decode w = .instr i := by
  cases h with
  | r ho h => exact (decode_of_opcode_zero ho).trans ((tag_lookup_eq_instr_iff rTable_keys_nodup).2 ⟨_, h, rfl⟩)
  | i h =>
    obtain ⟨h0, hj, h1⟩ := iTable_opcode h
    exact (decode_of_opcode_other h0 hj h1).trans ((tag_lookup_eq_instr_iff iTable_keys_nodup).2 ⟨_, h, rfl⟩)
  | regimm ho h =>
    exact (decode_of_opcode_regimm ho).trans ((tag_lookup_eq_instr_iff regimmTable_keys_nodup).2 ⟨_, h, rfl⟩)
  | j h =>
    have hj := jTable_opcode h
    exact (decode_of_opcode_jump hj).trans ((tag_lookup_eq_instr_iff jTable_keys_nodup).2 ⟨_, h, rfl⟩)

theorem decodesTo_of_decode {w : Word} {i : Instr} (h : decode w = .instr i) : DecodesTo w i := by
  by_cases h0 : opcodeOf w = 0x00#6
  · rw [decode_of_opcode_zero h0, tag_lookup_eq_instr_iff rTable_keys_nodup] at h
    obtain ⟨mk, hmk, rfl⟩ := h
    exact .r h0 hmk
  by_cases hj : opcodeOf w = 0x02#6 ∨ opcodeOf w = 0x03#6
  · rw [decode_of_opcode_jump hj, tag_lookup_eq_instr_iff jTable_keys_nodup] at h
    obtain ⟨mk, hmk, rfl⟩ := h
    exact .j hmk
  by_cases h1 : opcodeOf w = regimmOpcode
  · rw [decode_of_opcode_regimm h1, tag_lookup_eq_instr_iff regimmTable_keys_nodup] at h
    obtain ⟨mk, hmk, rfl⟩ := h
    exact .regimm h1 hmk
  · rw [decode_of_opcode_other h0 hj h1, tag_lookup_eq_instr_iff iTable_keys_nodup] at h
    obtain ⟨mk, hmk, rfl⟩ := h
    exact .i hmk

/-! #### The encoder writes the number of the row -/

theorem encode_rTable : ∀ row ∈ rTable, ∀ f, encode (row.2 f) = encodeR row.1 f ∧ (row.2 f).wf = true := by
  simp [rTable, encode, Instr.wf]

theorem encode_iTable : ∀ row ∈ iTable, ∀ f, encode (row.2 f) = encodeI row.1 f ∧ (row.2 f).wf = true := by
  simp [iTable, encode, Instr.wf]

theorem encode_regimmTable :
    ∀ row ∈ regimmTable, ∀ f : IFields,
      encode (row.2 f) = encodeI regimmOpcode f ∧ (f.rt = row.1 → (row.2 f).wf = true) := by
  simp [regimmTable, encode, Instr.wf, rtBltz, rtBgez]

theorem encode_jTable : ∀ row ∈ jTable, ∀ f, encode (row.2 f) = encodeJ row.1 f ∧ (row.2 f).wf = true := by
  simp [jTable, encode, Instr.wf]

/-- The record of a word is well-formed and keeps every bit of it (R83, R87). -/
theorem DecodesTo.encode_eq_and_wf {w : Word} {i : Instr} (h : DecodesTo w i) : encode i = w ∧ i.wf = true := by
  cases h with
  | r ho h =>
    obtain ⟨he, hwf⟩ := encode_rTable _ h (rFieldsOf w)
    exact ⟨he.trans (encodeR_fieldsOf w ho), hwf⟩
  | i h =>
    obtain ⟨he, hwf⟩ := encode_iTable _ h (iFieldsOf w)
    exact ⟨he.trans (encodeI_fieldsOf w), hwf⟩
  | regimm ho h =>
    obtain ⟨he, hwf⟩ := encode_regimmTable _ h (iFieldsOf w)
    exact ⟨he.trans (ho ▸ encodeI_fieldsOf w), hwf rfl⟩
  | j h =>
    obtain ⟨he, hwf⟩ := encode_jTable _ h (jFieldsOf w)
    exact ⟨he.trans (encodeJ_fieldsOf w), hwf⟩

theorem wf_of_decode {w : Word} {i : Instr} (h : decode w = .instr i) : i.wf = true :=
  (decodesTo_of_decode h).encode_eq_and_wf.2

/-- Settles O21: what the decoder makes of a word keeps every bit of it. -/
theorem encodeRestoresTheDecodedWord : Obligations.EncodeRestoresTheDecodedWord :=
  fun _ _ h => (decodesTo_of_decode h).encode_eq_and_wf

theorem decode_encodeR (k : BitVec 6) (f : RFields) :
    decode (encodeR k f) = tag (rTable.lookup k) f .unmappedFunct := by
  rw [decode_of_opcode_zero (opcodeOf_encodeR k f), functOf_encodeR, rFieldsOf_encodeR]

theorem decode_encodeI (k : BitVec 6) (f : IFields) (h : k ∈ iTable.map Prod.fst) :
    decode (encodeI k f) = tag (iTable.lookup k) f .unmappedOpcode := by
  obtain ⟨row, hrow, rfl⟩ := List.mem_map.1 h
  obtain ⟨h0, hj, h1⟩ := iTable_opcode hrow
  rw [← opcodeOf_encodeI row.1 f] at h0 hj h1
  rw [decode_of_opcode_other h0 hj h1, opcodeOf_encodeI, iFieldsOf_encodeI]

theorem decode_encodeI_regimm (f : IFields) :
    decode (encodeI regimmOpcode f) = tag (regimmTable.lookup f.rt) f .unmappedRegimm := by
  rw [decode_of_opcode_regimm (opcodeOf_encodeI _ f), rtOf_encodeI, iFieldsOf_encodeI]

theorem decode_encodeJ (k : BitVec 6) (f : JFields) (h : k = 0x02#6 ∨ k = 0x03#6) :
    decode (encodeJ k f) = tag (jTable.lookup k) f .unmappedOpcode := by
  rw [decode_of_opcode_jump (by rwa [opcodeOf_encodeJ]), opcodeOf_encodeJ, jFieldsOf_encodeJ]

/-- Settles O20: the encoder writes the key of the row that the decoder then finds. -/
theorem decodeReadsTheWellFormedEncoding : Obligations.DecodeReadsTheWellFormedEncoding := by
  intro i hi
  cases i with
  | sll f | srl f | sra f | jr f | jalr f | syscall f | mfhi f | mthi f | mflo f | mtlo f | mult f | multu f | div f
  | divu f | add f | addu f | sub f | subu f | and f | or f | xor f | nor f | slt f => exact decode_encodeR _ f
  | beq f | bne f | blez f | bgtz f | addi f | addiu f | slti f | andi f | ori f | xori f | lui f | lb f | lh f | lw f
  | sb f | sh f | sw f => exact decode_encodeI _ f (by decide)
  | bltz f | bgez f =>
    have hrt := eq_of_beq hi
    exact (decode_encodeI_regimm f).trans (hrt ▸ rfl)
  | j f | jal f => exact decode_encodeJ _ f (by decide)

/-! #### The rows of the opcode table -/

/-- The 44 rows are the rows of the four tables, each matched on the word of its record with every operand 0. -/
theorem opcodeRows_eq : opcodeRows =
    rTable.map (fun row => .ofR (encodeR row.1 { rs := 0, rt := 0, rd := 0, shamt := 0 }) row.2) ++
    iTable.map (fun row => .ofI (encodeI row.1 { rs := 0, rt := 0, imm := 0 }) row.2) ++
    regimmTable.map (fun row => .ofRegimm (encodeI regimmOpcode { rs := 0, rt := row.1, imm := 0 }) row.2) ++
    jTable.map (fun row => .ofJ (encodeI row.1 { rs := 0, rt := 0, imm := 0 }) row.2) := rfl

/-- A word hits a row exactly when it stands for the instruction the row makes of it (R85 to R88). -/
theorem exists_hit_iff {w : Word} {i : Instr} :
    (∃ row ∈ opcodeRows, row.hits w ∧ row.make w = i) ↔ DecodesTo w i := by
  rw [opcodeRows_eq]
  simp only [List.mem_append, List.mem_map, or_assoc]
  constructor
  · rintro ⟨_, ⟨⟨k, mk⟩, hrow, rfl⟩ | ⟨⟨k, mk⟩, hrow, rfl⟩ | ⟨⟨k, mk⟩, hrow, rfl⟩ | ⟨⟨k, mk⟩, hrow, rfl⟩, hit, rfl⟩
    · obtain ⟨ho, rfl⟩ := (maskR_iff w k).1 hit
      exact .r ho hrow
    · obtain rfl := (maskI_iff w k).1 hit
      exact .i hrow
    · obtain ⟨ho, rfl⟩ := (maskRegimm_iff w _ k).1 hit
      exact .regimm ho hrow
    · obtain rfl := (maskI_iff w k).1 hit
      exact .j hrow
  · rintro (⟨ho, h⟩ | h | ⟨ho, h⟩ | h)
    · exact ⟨_, .inl ⟨_, h, rfl⟩, (maskR_iff w _).2 ⟨ho, rfl⟩, rfl⟩
    · exact ⟨_, .inr (.inl ⟨_, h, rfl⟩), (maskI_iff w _).2 rfl, rfl⟩
    · exact ⟨_, .inr (.inr (.inl ⟨_, h, rfl⟩)), (maskRegimm_iff w _ _).2 ⟨ho, rfl⟩, rfl⟩
    · exact ⟨_, .inr (.inr (.inr ⟨_, h, rfl⟩)), (maskI_iff w _).2 rfl, rfl⟩

/-- Settles O22, by the two readings of `DecodesTo`. -/
theorem decodeFollowsTheOpcodeRows : Obligations.DecodeFollowsTheOpcodeRows :=
  fun row hrow _ hit => (exists_hit_iff.1 ⟨row, hrow, hit, rfl⟩).decode_eq

/-- The decoder rejects exactly the words of no row (R90). -/
theorem exists_reject_iff (w : Word) : (∃ r, decode w = .reject r) ↔ ∀ row ∈ opcodeRows, ¬row.hits w := by
  constructor
  · rintro ⟨r, hr⟩ row hrow hit
    simp [decodeFollowsTheOpcodeRows row hrow w hit] at hr
  · intro h
    cases hd : decode w with
    | instr i =>
      obtain ⟨row, hrow, hit, -⟩ := exists_hit_iff.2 (decodesTo_of_decode hd)
      exact absurd hit (h row hrow)
    | reject r => exact ⟨r, rfl⟩

/-- Two rows share a word only when their matches agree on the bits that both masks keep. -/
theorem OpcodeRow.and_mask_of_hits {a b : OpcodeRow} {w : Word} (ha : a.hits w) (hb : b.hits w) :
    a.bits &&& b.mask = b.bits &&& a.mask := by
  unfold OpcodeRow.hits at ha hb
  rw [← ha, ← hb, BitVec.and_assoc, BitVec.and_assoc, BitVec.and_comm a.mask]

theorem opcodeRows_pairwise : opcodeRows.Pairwise fun a b => a.bits &&& b.mask ≠ b.bits &&& a.mask := by decide

/-- Settles O24: the matches of any two rows differ in a bit that both masks keep. -/
theorem opcodeRowsDoNotOverlap : Obligations.OpcodeRowsDoNotOverlap :=
  opcodeRows_pairwise.imp fun h _ ⟨ha, hb⟩ => h (OpcodeRow.and_mask_of_hits ha hb)

/-! #### Formats -/

theorem toNat_opcodeOf (w : Word) : (opcodeOf w).toNat = w.toNat / 2 ^ 26 := by
  have := w.isLt
  rw [opcodeOf, BitVec.extractLsb'_toNat, Nat.shiftRight_eq_div_pow, Nat.mod_eq_of_lt (by omega)]

theorem opcodeOf_eq_iff (w : Word) (k : BitVec 6) : opcodeOf w = k ↔ w.toNat / 2 ^ 26 = k.toNat := by
  rw [← toNat_opcodeOf, BitVec.toNat_inj]

/-- The encoded word has the format of the record (R81, R83). -/
theorem formatOf_encode (i : Instr) : formatOf (encode i) = i.format := by
  cases i with
  | sll f | srl f | sra f | jr f | jalr f | syscall f | mfhi f | mthi f | mflo f | mtlo f | mult f | multu f | div f
  | divu f | add f | addu f | sub f | subu f | and f | or f | xor f | nor f | slt f => exact Laws.formatOf_encodeR _ f
  | beq f | bne f | blez f | bgtz f | addi f | addiu f | slti f | andi f | ori f | xori f | lui f | lb f | lh f | lw f
  | sb f | sh f | sw f | bltz f | bgez f => exact Laws.formatOf_encodeI _ f (by decide)
  | j f | jal f => exact Laws.formatOf_encodeJ _ f (by decide)

theorem formatOf_eq_r_iff (w : Word) : formatOf w = .r ↔ opcodeOf w = 0x00#6 := by
  unfold formatOf
  split_ifs <;> simp [*]

theorem formatOf_eq_j_iff (w : Word) : formatOf w = .j ↔ opcodeOf w = 0x02#6 ∨ opcodeOf w = 0x03#6 := by
  unfold formatOf
  split_ifs <;> simp [*]

theorem formatOf_eq_i_iff (w : Word) :
    formatOf w = .i ↔ opcodeOf w ≠ 0x00#6 ∧ ¬(opcodeOf w = 0x02#6 ∨ opcodeOf w = 0x03#6) := by
  unfold formatOf
  split_ifs <;> simp [*]

/-- Settles O25: the classifier compares the top 6 bits, and the record of a word encodes back to it. -/
theorem formatFollowsTheOpcodeAlone : Obligations.FormatFollowsTheOpcodeAlone := by
  intro w
  have h0 : opcodeOf w = 0x00#6 ↔ w.toNat / 2 ^ 26 = 0 := opcodeOf_eq_iff w _
  have h2 : opcodeOf w = 0x02#6 ↔ w.toNat / 2 ^ 26 = 2 := opcodeOf_eq_iff w _
  have h3 : opcodeOf w = 0x03#6 ↔ w.toNat / 2 ^ 26 = 3 := opcodeOf_eq_iff w _
  refine ⟨?_, ?_, ?_, fun i hi => ?_⟩
  · rw [formatOf_eq_r_iff, h0]
  · rw [formatOf_eq_j_iff, h2, h3]
  · rw [formatOf_eq_i_iff, not_or, ne_eq, h0, h2, h3]
  · rw [← (decodesTo_of_decode hi).encode_eq_and_wf.1, formatOf_encode]

/-- Settles O26, by running the decoder on each of the ten words. -/
theorem writtenOutWordsDecode : Obligations.WrittenOutWordsDecode := by
  unfold Obligations.WrittenOutWordsDecode
  decide

end Sys2Proof

namespace Sys2Proof.Machine

/-- Settles O23: `exists_reject_iff` for the decoder, `step_of_reject` for the step. -/
theorem unmappedWordsRaiseDecodeFault : Obligations.UnmappedWordsRaiseDecodeFault := by
  refine ⟨exists_reject_iff, fun s hrun ha hw => ?_⟩
  obtain ⟨e, he⟩ := (exists_reject_iff _).2 hw
  rw [step_of_reject hrun ha he]
  exact isRaised_raise s _ _ _

end Sys2Proof.Machine
end

section
/-! ### Ignored fields and records that no word decodes to (30_encoding.md R87, R91) -/

namespace Sys2Proof.Machine

theorem withoutReportWord_raise (s : State) (e : HaltReason) (w w' : Word) (a : Option Word) :
    withoutReportWord (.next (s.raise e (some w) a)) = withoutReportWord (.next (s.raise e (some w') a)) := rfl

/-- A divide reads rs and rt, and reports its word when it divides by zero. -/
theorem withoutReportWord_exec_div (s : State) {f g : RFields} (hrs : f.rs = g.rs) (hrt : f.rt = g.rt) :
    withoutReportWord (exec (.div f) s) = withoutReportWord (exec (.div g) s) := by
  simp only [exec, execDiv, hrs, hrt]
  split
  · exact withoutReportWord_raise s _ _ _ _
  · rfl

theorem withoutReportWord_exec_divu (s : State) {f g : RFields} (hrs : f.rs = g.rs) (hrt : f.rt = g.rt) :
    withoutReportWord (exec (.divu f) s) = withoutReportWord (exec (.divu g) s) := by
  simp only [exec, execDivu, hrs, hrt]
  split
  · exact withoutReportWord_raise s _ _ _ _
  · rfl

theorem withoutReportWord_exec_syscall (s : State) (f g : RFields) :
    withoutReportWord (exec (.syscall f) s) = withoutReportWord (exec (.syscall g) s) := by
  simp only [exec, execSyscall]
  split
  · rfl
  · rfl

theorem State.shiftOperand_of_rt {s : State} (h : s.config.shiftSource = .rt) (f : RFields) :
    s.shiftOperand f = s.reg f.rt := by
  simp [State.shiftOperand, h]

/-- Settles O27: the meanings read no field but those the hypotheses name, and `encode` only goes to the report. -/
theorem ignoredFieldsHaveNoEffect : Obligations.IgnoredFieldsHaveNoEffect := by
  intro s
  refine ⟨?_, ?_, ?_, ?_, ?_, ?_, ?_, ?_, withoutReportWord_exec_syscall s⟩
  · rintro mk hmk ⟨rs, rt, rd, sh⟩ ⟨_, _, _, sh'⟩ rfl rfl rfl
    simp only [List.mem_cons, List.not_mem_nil, or_false] at hmk
    rcases hmk with rfl | rfl | rfl | rfl | rfl | rfl | rfl | rfl | rfl <;> rfl
  · intro hsource mk hmk f g hrt hrd hsh
    have hop : s.shiftOperand f = s.shiftOperand g := by
      rw [State.shiftOperand_of_rt hsource, State.shiftOperand_of_rt hsource, hrt]
    simp only [List.mem_cons, List.not_mem_nil, or_false] at hmk
    rcases hmk with rfl | rfl | rfl <;> simp only [exec, execSll, execSrl, execSra, hop, hrd, hsh]
  · rintro mk hmk ⟨rs, rt, rd, sh⟩ ⟨_, rt', rd', sh'⟩ rfl
    simp only [List.mem_cons, List.not_mem_nil, or_false] at hmk
    rcases hmk with rfl | rfl | rfl <;> rfl
  · rintro mk hmk ⟨rs, rt, rd, sh⟩ ⟨_, rt', _, sh'⟩ rfl rfl
    cases List.mem_singleton.1 hmk
    rfl
  · rintro mk hmk ⟨rs, rt, rd, sh⟩ ⟨rs', rt', _, sh'⟩ rfl
    simp only [List.mem_cons, List.not_mem_nil, or_false] at hmk
    rcases hmk with rfl | rfl <;> rfl
  · intro mk hmk f g hrs hrt
    simp only [List.mem_cons, List.not_mem_nil, or_false] at hmk
    rcases hmk with rfl | rfl | rfl | rfl
    · simp only [exec, execMult, hrs, hrt]
    · simp only [exec, execMultu, hrs, hrt]
    · exact withoutReportWord_exec_div s hrs hrt
    · exact withoutReportWord_exec_divu s hrs hrt
  · rintro mk hmk ⟨rs, rt, imm⟩ ⟨rs', _, _⟩ rfl rfl
    cases List.mem_singleton.1 hmk
    rfl
  · rintro mk hmk ⟨rs, rt, imm⟩ ⟨_, rt', _⟩ rfl rfl
    simp only [List.mem_cons, List.not_mem_nil, or_false] at hmk
    rcases hmk with rfl | rfl <;> rfl

/-! #### Branches on the sign of rs, whatever rt holds -/

/-- A commit completes its instruction with any effect that says what the state holds. -/
theorem Committed.completes {i : Instr} {s t : State} {e : Effect} (hc : Committed s t e.pc e.hi e.lo)
    (he : exec i s = .next t) (hreg : ∀ r, t.reg r = e.reg r) (hbyte : ∀ a, t.loadByte a = e.byte a) :
    Completes i s e :=
  ⟨t, he, hc.pc_eq, hreg, hc.hi_eq, hc.lo_eq, hbyte, hc.stored_zero, hc.copies, hc.count_eq, hc.run_eq, hc.report_eq,
    hc.config_eq⟩

/-- The branch target is `pc + 4` and four times the signed offset (R166). -/
theorem State.branchTarget_eq (s : State) (f : IFields) :
    s.branchTarget f = s.pc + 4#32 + BitVec.ofInt 32 (f.imm.toInt * 4) := by
  rw [State.branchTarget, sext32, BitVec.signExtend, BitVec.shiftLeft_eq_mul_twoPow, BitVec.ofInt_mul]
  rfl

/-- An instruction that comes to a branch goes to the target when its condition holds, and changes nothing else. -/
theorem completes_branch {i : Instr} {s : State} {f : IFields} {taken : Prop} [Decidable taken]
    (he : exec i s = .next (s.branch (decide taken) (s.branchTarget f))) :
    Completes i s { s.unchanged with
      pc := if taken then s.pc + 4#32 + BitVec.ofInt 32 (f.imm.toInt * 4) else s.pc + 4#32 } := by
  obtain ⟨hc, hreg, hmem⟩ := s.branch_spec (decide taken) (s.branchTarget f)
  refine Committed.completes ?_ he hreg fun a => State.loadByte_congr hc.config_eq hmem a
  simpa [State.branchTarget_eq, State.unchanged] using hc

/-- Settles O59: what a word decodes to is well-formed, and `exec` does not look at rt. -/
theorem illFormedSignBranchesBranchAlike : Obligations.IllFormedSignBranchesBranchAlike := by
  refine fun s f => ⟨fun hrt => ⟨fun w hw => hrt ?_, completes_branch rfl⟩,
    fun hrt => ⟨fun w hw => hrt ?_, completes_branch rfl⟩⟩
  · exact eq_of_beq (wf_of_decode hw)
  · exact eq_of_beq (wf_of_decode hw)

end Sys2Proof.Machine
end

section
/-! ### The execution cycle (40_execution_cycle.md R100 to R112) -/

namespace Sys2Proof.Machine

/-! #### Halted machines, the instruction at the PC, and runs -/

/-- Settles O29: the front of a step stops at once, and so does a run. -/
theorem haltedMachineChangesNothing : Obligations.HaltedMachineChangesNothing :=
  fun _ h => ⟨step_of_halted h, State.runSteps_of_halted h⟩

/-- Settles O28: the step is `step_of_instr`, and the decoder keeps every bit of the word (log entry 9). -/
theorem stepExecutesTheDecodedInstruction : Obligations.StepExecutesTheDecodedInstruction :=
  fun _ _ hrun ha hd => ⟨step_of_instr hrun ha hd, (encodeRestoresTheDecodedWord _ _ hd).1⟩

theorem State.runSteps_succ_of_step {s t : State} (hrun : s.run = .running) (hs : step s = .next t) (n : Nat) :
    s.runSteps (n + 1) = t.runSteps n := by
  simp [State.runSteps, hrun, hs]

/-- A run of a RUNNING machine that answers a next state has taken its first step. -/
theorem State.step_of_runSteps_succ {s t : State} {n : Nat} (hrun : s.run = .running)
    (h : s.runSteps (n + 1) = .next t) : ∃ u, step s = .next u ∧ u.runSteps n = .next t := by
  cases hs : step s with
  | next u => exact ⟨u, rfl, State.runSteps_succ_of_step hrun hs n ▸ h⟩
  | fault e | refused e => simp [State.runSteps, hrun, hs] at h

/-- A run continues from where its first part ended (R110). -/
theorem State.runSteps_add {s t : State} {m : Nat} (n : Nat) (h : s.runSteps m = .next t) :
    s.runSteps (m + n) = t.runSteps n := by
  induction m generalizing s with
  | zero =>
    cases h
    rw [Nat.zero_add]
  | succ m ih =>
    cases hrun : s.run with
    | halted =>
      obtain rfl : s = t := Host.Outcome.next.inj ((State.runSteps_of_halted hrun _).symm.trans h)
      rw [State.runSteps_of_halted hrun, State.runSteps_of_halted hrun]
    | running =>
      obtain ⟨u, hs, hu⟩ := State.step_of_runSteps_succ hrun h
      rw [Nat.succ_add, State.runSteps_succ_of_step hrun hs, ih hu]

/-- Settles O39, by the two equations of a run and `State.runSteps_add`. -/
theorem runsStopAtTheFirstHalt : Obligations.RunsStopAtTheFirstHalt :=
  fun _ => ⟨rfl, fun n h => State.runSteps_of_halted h n,
    fun n _ hrun hs => State.runSteps_succ_of_step hrun hs n, fun _ n _ h => State.runSteps_add n h⟩

/-- Settles O40: each of the two runs, continued for the length of the other, stays at its own end. -/
theorem completedRunsHaveOneEnd : Obligations.CompletedRunsHaveOneEnd := by
  rintro s t u ⟨m, hm, ht⟩ ⟨n, hn, hu⟩
  have hend : (.next t : Result) = .next u := calc
    _ = t.runSteps n := (State.runSteps_of_halted ht n).symm
    _ = s.runSteps (m + n) := (State.runSteps_add n hm).symm
    _ = s.runSteps (n + m) := by rw [Nat.add_comm]
    _ = u.runSteps m := State.runSteps_add m hn
    _ = .next u := State.runSteps_of_halted hu m
  exact ⟨Host.Outcome.next.inj hend, State.runSteps_of_halted ht⟩

/-! #### Faults -/

/-- A step of a RUNNING machine that ends HALTED raised a fault over the word at the PC, or is the clean end of a
SYSCALL (R101, R106). -/
theorem step_halted_cases {s t : State} (hrun : s.run = .running) (hs : step s = .next t) (ht : t.run = .halted) :
    (¬s.Performs s.pc .word ∧ ∃ e a, t = s.raise e none a) ∨
    (s.Performs s.pc .word ∧ ∃ e a, t = s.raise e (some s.wordAtPc) a) ∨
    ∃ w, t = s.advance.halt s.pc w := by
  rcases step_cases s with ⟨hh, -⟩ | ⟨-, ha, he⟩ | ⟨-, ha, e, -, he⟩ | ⟨-, ha, i, hd, he⟩
  · simp [hrun] at hh
  · exact .inl ⟨ha, _, _, Host.Outcome.next.inj (hs.symm.trans he)⟩
  · exact .inr (.inl ⟨ha, _, _, Host.Outcome.next.inj (hs.symm.trans he)⟩)
  · have hword : encode i = s.wordAtPc := (encodeRestoresTheDecodedWord _ _ hd).1
    rcases exec_outcome (he ▸ hs) with hc | ⟨f, -, hhalt⟩ | ⟨e, a, -, hraise⟩
    · simp [hc.run_eq, hrun] at ht
    · exact .inr (.inr ⟨_, hhalt⟩)
    · exact .inr (.inl ⟨ha, e, a, hword ▸ hraise⟩)

/-- Settles O32: a fault is a `State.raise`, and the report of a SYSCALL's end is no fault. -/
theorem faultingStepsCommitNothing : Obligations.FaultingStepsCommitNothing := by
  intro s t r hrun hs ht hr hfault
  rcases step_halted_cases hrun hs ht with ⟨ha, e, a, rfl⟩ | ⟨ha, e, a, rfl⟩ | ⟨w, rfl⟩ <;> cases hr
  · exact ⟨rfl, rfl, rfl, rfl, rfl, fun h => absurd h ha, fun _ => rfl⟩
  · exact ⟨rfl, rfl, rfl, rfl, rfl, fun _ => rfl, fun h => absurd ha h⟩
  · cases hfault

/-! #### Refusals -/

/-- Every instruction answers a next state, but for the refused pair of DIV (R152). -/
theorem exec_answers (i : Instr) (s : State) :
    (∃ t, exec i s = .next t ∧ t.config = s.config) ∨
    (exec i s = .refused .divOverflow ∧ s.config.divOverflow = .refuse ∧
      ∃ f, i = .div f ∧ s.reg f.rs = 0x80000000#32 ∧ s.reg f.rt = 0xFFFFFFFF#32) := by
  rcases exec_cases i s with ⟨_, _, -, -, he⟩ | ⟨_, _, _, -, -, he⟩ | ⟨_, _, -, -, -, -, he⟩ | ⟨_, _, -, -, he⟩ |
    ⟨_, -, -, he⟩ | ⟨_, _, -, -, he⟩ | ⟨_, -, -, he⟩ | ⟨_, -, -, he⟩ | ⟨_, _, -, he⟩ | ⟨f, hi, hp, hrs, hrt, he⟩
  case inr.inr.inr.inr.inr.inr.inr.inr.inr => exact .inr ⟨he, hp, f, hi, hrs, hrt⟩
  all_goals exact .inl ⟨_, he, (exec_frame he).config_eq⟩

/-- Settles O51: `exec_answers` for the instructions, and the front of a step always answers a next state. -/
theorem onlyDivOverflowIsRefused : Obligations.OnlyDivOverflowIsRefused := by
  refine ⟨exec_answers, fun s hwrap => ?_⟩
  rcases step_cases s with ⟨-, he⟩ | ⟨-, -, he⟩ | ⟨-, -, e, -, he⟩ | ⟨-, -, i, -, he⟩
  · exact ⟨_, he, rfl⟩
  · exact ⟨_, he, rfl⟩
  · exact ⟨_, he, rfl⟩
  · rw [he]
    exact (exec_answers i s).resolve_right fun ⟨_, hrefuse, _⟩ => by simp [hwrap] at hrefuse

/-! #### The PC after a commit -/

/-- Where a committed instruction leaves the PC (R103): the jumps apart, at `pc + 4` or at its branch target. -/
theorem exec_pc_of_committed {i : Instr} {s t : State} (h : exec i s = .next t) (hcount : t.count = s.count + 1) :
    t.pc = s.pc + 4#32 ∨
    (∃ f, (i = .beq f ∨ i = .bne f ∨ i = .blez f ∨ i = .bgtz f ∨ i = .bltz f ∨ i = .bgez f) ∧
      t.pc = s.branchTarget f) ∨
    (∃ f, i = .j f ∨ i = .jal f) ∨ ∃ f, i = .jr f ∨ i = .jalr f := by
  rcases exec_cases i s with ⟨r, v, -, -, he⟩ | ⟨f, hi, lo, -, -, he⟩ | ⟨f, n, -, -, -, -, he⟩ | ⟨f, b, -, hf, he⟩ |
    ⟨a, -, hj, he⟩ | ⟨r, a, -, hj, he⟩ | ⟨f, -, -, he⟩ | ⟨f, -, -, he⟩ | ⟨e, a, -, he⟩ | ⟨f, -, -, -, -, he⟩ <;>
    rw [he] at h <;> cases h
  · exact .inl (s.writeBack_spec r v).1.pc_eq
  · exact .inl (s.writeHiLo_spec hi lo).1.pc_eq
  · exact .inl (s.memWrite_commit_spec _ _ n).1.pc_eq
  · cases b
    · exact .inl (s.branch_spec false _).1.pc_eq
    · exact .inr (.inl ⟨f, hf, (s.branch_spec true _).1.pc_eq⟩)
  · rcases hj with ⟨f, rfl, -⟩ | ⟨f, rfl, -⟩
    · exact .inr (.inr (.inl ⟨f, .inl rfl⟩))
    · exact .inr (.inr (.inr ⟨f, .inl rfl⟩))
  · rcases hj with ⟨f, rfl, -⟩ | ⟨f, rfl, -⟩
    · exact .inr (.inr (.inl ⟨f, .inr rfl⟩))
    · exact .inr (.inr (.inr ⟨f, .inr rfl⟩))
  · exact .inl s.advance_spec.1.pc_eq
  · exact .inl s.advance_spec.1.pc_eq
  · simp at hcount

/-- Settles O48, by `exec_pc_of_committed`: the other cases are no instruction the clause speaks of. -/
theorem committedInstructionsAdvanceThePc : Obligations.CommittedInstructionsAdvanceThePc := by
  intro i s t h hcount
  rcases exec_pc_of_committed h hcount with hpc | ⟨g, hg, hpc⟩ | ⟨g, hg⟩ | ⟨g, hg⟩
  · exact ⟨fun _ => hpc, fun _ _ => .inl hpc⟩
  · rw [State.branchTarget_eq] at hpc
    refine ⟨?_, fun f hf => .inr ?_⟩
    · rcases hg with rfl | rfl | rfl | rfl | rfl | rfl <;> exact nofun
    · obtain rfl : g = f := by rcases hg with rfl | rfl | rfl | rfl | rfl | rfl <;> simpa using hf
      exact hpc
  · rcases hg with rfl | rfl <;> exact ⟨nofun, by simp⟩
  · rcases hg with rfl | rfl <;> exact ⟨nofun, by simp⟩

end Sys2Proof.Machine
end

section
/-! ### Register arithmetic and logic (41_alu_register.md R120 to R128), with SLTI (42_alu_immediate.md R132) -/

namespace Sys2Proof

/-- The mask of R85 keeps the opcode and the funct of an encoded word, whatever its registers and shamt. -/
theorem encodeR_and_mask (k : BitVec 6) (f : RFields) :
    encodeR k f &&& 0xFC00003F#32 = encodeR k { rs := 0, rt := 0, rd := 0, shamt := 0 } :=
  (maskR_iff _ k).2 ⟨opcodeOf_encodeR k f, functOf_encodeR k f⟩

/-- The mask of R86 keeps the opcode of an encoded word, whatever its registers and immediate. -/
theorem encodeI_and_mask (k : BitVec 6) (f : IFields) :
    encodeI k f &&& 0xFC000000#32 = encodeI k { rs := 0, rt := 0, imm := 0 } :=
  (maskI_iff _ k).2 (opcodeOf_encodeI k f)

namespace Machine

/-- An instruction that comes to a write-back writes its register, unless that is register 0, and changes nothing
else. -/
theorem completes_writeBack {i : Instr} {s : State} {r : Reg} {v : Word} (he : exec i s = .next (s.writeBack r v)) :
    Completes i s { s.unchanged with reg := s.regWith r v } := by
  obtain ⟨hc, hreg, hmem⟩ := s.writeBack_spec r v
  exact hc.completes he hreg fun a => State.loadByte_congr hc.config_eq hmem a

/-- Sign extension keeps the signed value of an immediate (R7). -/
@[simp] theorem toInt_sext32 (imm : BitVec 16) : (sext32 imm).toInt = imm.toInt :=
  BitVec.toInt_signExtend_of_le (by decide)

/-- Settles O1: each of the four is a write-back of the sum or the difference. -/
theorem addAndSubtractWriteRd : Obligations.AddAndSubtractWriteRd := fun _ f =>
  ⟨⟨encodeR_and_mask 0x20#6 f, completes_writeBack rfl⟩, ⟨encodeR_and_mask 0x21#6 f, completes_writeBack rfl⟩,
    ⟨encodeR_and_mask 0x22#6 f, completes_writeBack rfl⟩, ⟨encodeR_and_mask 0x23#6 f, completes_writeBack rfl⟩⟩

/-- Settles O2: each of the four is a write-back of the bitwise result. -/
theorem logicalOperationsWriteRd : Obligations.LogicalOperationsWriteRd := fun _ f =>
  ⟨⟨encodeR_and_mask 0x24#6 f, completes_writeBack rfl⟩, ⟨encodeR_and_mask 0x25#6 f, completes_writeBack rfl⟩,
    ⟨encodeR_and_mask 0x26#6 f, completes_writeBack rfl⟩, ⟨encodeR_and_mask 0x27#6 f, completes_writeBack rfl⟩⟩

/-- SLTI compares with the signed value of its immediate (R132). -/
theorem exec_slti (f : IFields) (s : State) :
    exec (.slti f) s = .next (s.writeBack f.rt (if (s.reg f.rs).toInt < f.imm.toInt then 1#32 else 0#32)) := by
  rw [← toInt_sext32]
  rfl

/-- Settles O3: both are write-backs, and sign extension keeps the value SLTI compares with. -/
theorem setOnLessComparesContents : Obligations.SetOnLessComparesContents :=
  ⟨fun _ f => ⟨encodeR_and_mask 0x2A#6 f, completes_writeBack rfl⟩,
    fun s f => ⟨encodeI_and_mask 0x0A#6 f, completes_writeBack (exec_slti f s)⟩⟩

end Machine

end Sys2Proof
end

section
/-! ### Immediate arithmetic, logic and LUI (42_alu_immediate.md R130, R131, R133 to R136) -/

namespace Sys2Proof.Machine

/-- The sign-extended immediate is its signed value modulo 2^32 (R7). -/
theorem sext32_eq_ofInt (imm : BitVec 16) : sext32 imm = BitVec.ofInt 32 imm.toInt := rfl

/-- The zero-extended immediate has a zero upper half (R7). -/
theorem zext32_eq_append (imm : BitVec 16) : zext32 imm = 0#16 ++ imm :=
  BitVec.setWidth_eq_append (by decide)

/-- The upper immediate is the immediate moved up by a halfword (R136). -/
theorem upperImm_eq_shiftLeft (imm : BitVec 16) : upperImm imm = imm.setWidth 32 <<< 16 := by
  rw [upperImm, BitVec.append_def, BitVec.shiftLeftZeroExtend_eq]
  exact BitVec.or_zero

/-- Settles O4: both are write-backs of the sum with the sign-extended immediate. -/
theorem addImmediateSignExtends : Obligations.AddImmediateSignExtends := by
  intro s f
  rw [← sext32_eq_ofInt]
  exact ⟨⟨encodeI_and_mask 0x08#6 f, completes_writeBack rfl⟩, ⟨encodeI_and_mask 0x09#6 f, completes_writeBack rfl⟩⟩

/-- Settles O5: the logical forms are write-backs with the zero-extended immediate, and LUI of the upper one. -/
theorem logicalImmediateZeroExtends : Obligations.LogicalImmediateZeroExtends := by
  intro s f
  rw [← zext32_eq_append, ← upperImm_eq_shiftLeft]
  exact ⟨⟨encodeI_and_mask 0x0C#6 f, completes_writeBack rfl⟩, ⟨encodeI_and_mask 0x0D#6 f, completes_writeBack rfl⟩,
    ⟨encodeI_and_mask 0x0E#6 f, completes_writeBack rfl⟩, ⟨encodeI_and_mask 0x0F#6 f, completes_writeBack rfl⟩⟩

end Sys2Proof.Machine
end

section
/-! ### Shifts (43_shifts.md R139 to R142) -/

namespace Sys2Proof.Machine

/-- The shifted value is the register SHIFT_SOURCE names (R139). -/
theorem State.shiftOperand_eq {s : State} {f : RFields} {v : Word}
    (hrt : s.config.shiftSource = .rt → v = s.reg f.rt) (hrs : s.config.shiftSource = .rs → v = s.reg f.rs) :
    s.shiftOperand f = v := by
  unfold State.shiftOperand
  split
  · next h => exact (hrt h).symm
  · next h => exact (hrs h).symm

/-- A left shift multiplies by a power of two, modulo 2^32 (R140). -/
theorem shiftLeft_eq_ofNat_mul (v : Word) (n : BitVec 5) :
    v <<< n = BitVec.ofNat 32 (v.toNat * 2 ^ n.toNat) := by
  rw [← Nat.shiftLeft_eq]
  rfl

/-- A logical right shift is the floor of the unsigned quotient (R141). -/
theorem ushiftRight_eq_ofNat_div (v : Word) (n : BitVec 5) :
    v >>> n = BitVec.ofNat 32 (v.toNat / 2 ^ n.toNat) := by
  rw [BitVec.ushiftRight_eq', ← Nat.shiftRight_eq_div_pow, ← BitVec.toNat_ushiftRight, BitVec.ofNat_toNat,
    BitVec.setWidth_eq]

/-- An arithmetic right shift is the floor of the signed quotient (R142). -/
theorem sshiftRight'_eq_ofInt_div (v : Word) (n : BitVec 5) :
    v.sshiftRight' n = BitVec.ofInt 32 (v.toInt / 2 ^ n.toNat) := by
  rw [BitVec.sshiftRight_eq', BitVec.sshiftRight_eq, Int.shiftRight_eq_div_pow, Nat.cast_pow, Nat.cast_ofNat]

/-- Settles O6: each of the three is a write-back of the shifted operand, and each shift is its arithmetic form. -/
theorem shiftsShiftTheSourceRegister : Obligations.ShiftsShiftTheSourceRegister := by
  intro s f v hrt hrs
  obtain rfl := State.shiftOperand_eq hrt hrs
  rw [← shiftLeft_eq_ofNat_mul, ← ushiftRight_eq_ofNat_div, ← sshiftRight'_eq_ofInt_div]
  exact ⟨⟨encodeR_and_mask 0x00#6 f, completes_writeBack rfl⟩, ⟨encodeR_and_mask 0x02#6 f, completes_writeBack rfl⟩,
    ⟨encodeR_and_mask 0x03#6 f, completes_writeBack rfl⟩⟩

end Sys2Proof.Machine
end

section
/-! ### Multiply, divide and the HI/LO moves (44_muldiv_hilo.md R150 to R157) -/

namespace Sys2Proof.Machine

/-- An instruction that comes to a write of HI and LO writes those two, and changes nothing else. -/
theorem completes_writeHiLo {i : Instr} {s : State} {hi lo : Word} (he : exec i s = .next (s.writeHiLo hi lo)) :
    Completes i s { s.unchanged with hi := hi, lo := lo } := by
  obtain ⟨hc, hreg, hmem⟩ := s.writeHiLo_spec hi lo
  exact hc.completes he hreg fun a => State.loadByte_congr hc.config_eq hmem a

/-- Settles O10: two write-backs, and two writes of HI and LO that write one of them back. -/
theorem hiLoMovesCopyOneRegister : Obligations.HiLoMovesCopyOneRegister := fun _ f =>
  ⟨⟨encodeR_and_mask 0x10#6 f, completes_writeBack rfl⟩, ⟨encodeR_and_mask 0x12#6 f, completes_writeBack rfl⟩,
    ⟨encodeR_and_mask 0x11#6 f, completes_writeHiLo rfl⟩, ⟨encodeR_and_mask 0x13#6 f, completes_writeHiLo rfl⟩⟩

/-! #### Multiply -/

/-- The upper and the lower word of a doubleword, side by side, are the doubleword. -/
theorem append_extractLsb'_words (p : BitVec 64) : (p.extractLsb' 32 32 ++ p.extractLsb' 0 32 : BitVec 64) = p :=
  BitVec.extractLsb'_append_extractLsb' (w := 32) (len := 32)

/-- The product of two signed words fits in 64 bits (R150). -/
theorem toInt_ofInt_mul (a b : Word) : (BitVec.ofInt 64 (a.toInt * b.toInt)).toInt = a.toInt * b.toInt := by
  have hle : a.toInt * b.toInt ≤ 2 ^ 62 := BitVec.toInt_mul_toInt_le
  have hge : -2 ^ 62 ≤ a.toInt * b.toInt := BitVec.le_toInt_mul_toInt
  exact BitVec.toInt_ofInt_eq_self (by decide) (by omega) (by omega)

/-- The product of two unsigned words fits in 64 bits (R151). -/
theorem toNat_ofNat_mul (a b : Word) : (BitVec.ofNat 64 (a.toNat * b.toNat)).toNat = a.toNat * b.toNat := by
  have hlt : a.toNat * b.toNat < 2 ^ 32 * 2 ^ 32 := Nat.mul_lt_mul'' a.isLt b.isLt
  exact Nat.mod_eq_of_lt hlt

/-- Settles O7: HI and LO are the halves of a doubleword that holds the product. -/
theorem multiplySplitsTheExactProduct : Obligations.MultiplySplitsTheExactProduct := by
  intro s f
  refine ⟨⟨encodeR_and_mask 0x18#6 f, _, _, ?_, completes_writeHiLo rfl⟩,
    ⟨encodeR_and_mask 0x19#6 f, _, _, ?_, completes_writeHiLo rfl⟩⟩
  · rw [append_extractLsb'_words, toInt_ofInt_mul]
  · rw [append_extractLsb'_words, toNat_ofNat_mul]

/-! #### Divide -/

/-- A divide by zero leaves the frame of a fault (R192). -/
theorem exec_isRaised_of_div_by_zero {i : Instr} {s : State} {f : RFields} (hi : i = .div f ∨ i = .divu f)
    (h : s.reg f.rt = 0#32) :
    IsRaised (exec i s) s { reason := .divideByZero, pc := s.pc, word := some (encode i), addr := none } :=
  exec_div_by_zero hi h ▸ isRaised_raise s _ _ _

/-- DIVU writes the remainder and the quotient of the words (R153). -/
theorem exec_divu_of_ne_zero {s : State} {f : RFields} (h0 : s.reg f.rt ≠ 0#32) :
    exec (.divu f) s = .next (s.writeHiLo (s.reg f.rs % s.reg f.rt) (s.reg f.rs / s.reg f.rt)) := by
  rw [exec, execDivu, if_neg h0, ← BitVec.toNat_umod, ← BitVec.toNat_udiv, BitVec.ofNat_toNat, BitVec.ofNat_toNat,
    BitVec.setWidth_eq, BitVec.setWidth_eq]

/-- Settles O9: the quotient and the remainder of the words are those of the naturals. -/
theorem unsignedDivideFloors : Obligations.UnsignedDivideFloors := by
  refine fun s f => ⟨encodeR_and_mask 0x1B#6 f, exec_isRaised_of_div_by_zero (.inr rfl), fun h0 => ?_⟩
  refine ⟨_, _, ?_, ?_, completes_writeHiLo (exec_divu_of_ne_zero h0)⟩
  · rw [BitVec.toNat_udiv, BitVec.toNat_umod, Nat.div_add_mod']
  · exact BitVec.umod_lt _ ((BitVec.pos_iff_ne_zero _).2 h0)

/-- The word of the truncated quotient is the signed quotient of the words. -/
theorem ofInt_tdiv (a b : Word) : BitVec.ofInt 32 (a.toInt.tdiv b.toInt) = a.sdiv b :=
  BitVec.eq_of_toInt_eq (by rw [BitVec.toInt_ofInt, BitVec.toInt_sdiv])

/-- The word of the truncated remainder is the signed remainder of the words. -/
theorem ofInt_tmod (a b : Word) : BitVec.ofInt 32 (a.toInt.tmod b.toInt) = a.srem b := by
  rw [← BitVec.toInt_srem, BitVec.ofInt_toInt]

/-- DIV writes the signed remainder and quotient of the words, where it is neither a fault nor refused (R152). -/
theorem exec_div_of_ne_zero {s : State} {f : RFields} (h0 : s.reg f.rt ≠ 0#32)
    (ho : ¬(s.config.divOverflow = .refuse ∧ s.reg f.rs = 0x80000000#32 ∧ s.reg f.rt = 0xFFFFFFFF#32)) :
    exec (.div f) s = .next (s.writeHiLo ((s.reg f.rs).srem (s.reg f.rt)) ((s.reg f.rs).sdiv (s.reg f.rt))) := by
  rw [exec, execDiv, if_neg h0, if_neg ho, ofInt_tdiv, ofInt_tmod]

/-- The overflow pair wraps under `DIV_OVERFLOW_RESULT = Wrap` (R152). -/
theorem exec_div_wraps {s : State} {f : RFields} (hc : s.config.divOverflow = .wrap)
    (hrs : s.reg f.rs = 0x80000000#32) (hrt : s.reg f.rt = 0xFFFFFFFF#32) :
    exec (.div f) s = .next (s.writeHiLo 0#32 0x80000000#32) := by
  have h0 : s.reg f.rt ≠ 0#32 := by rw [hrt]; decide
  have hr : BitVec.srem 0x80000000#32 0xFFFFFFFF#32 = 0#32 := by decide
  have hq : BitVec.sdiv 0x80000000#32 0xFFFFFFFF#32 = 0x80000000#32 := by decide
  rw [exec_div_of_ne_zero h0 (by simp [hc]), hrs, hrt, hr, hq]

/-- The overflow pair is refused under `DIV_OVERFLOW_RESULT = Refuse` (R152). -/
theorem exec_div_refused {s : State} {f : RFields} (hc : s.config.divOverflow = .refuse)
    (hrs : s.reg f.rs = 0x80000000#32) (hrt : s.reg f.rt = 0xFFFFFFFF#32) :
    exec (.div f) s = .refused .divOverflow := by
  have h0 : s.reg f.rt ≠ 0#32 := by rw [hrt]; decide
  rw [exec, execDiv, if_neg h0, if_pos ⟨hc, hrs, hrt⟩]

/-- Signed quotient and remainder give back the dividend, but for the overflow pair (R152). -/
theorem toInt_eq_sdiv_mul_add_srem {a b : Word} (h : ¬(a = 0x80000000#32 ∧ b = 0xFFFFFFFF#32)) :
    a.toInt = (a.sdiv b).toInt * b.toInt + (a.srem b).toInt := by
  rw [BitVec.toInt_sdiv_of_ne_or_ne a b (not_and_or.1 h), BitVec.toInt_srem, Int.tdiv_mul_add_tmod]

/-- The signed remainder is smaller than the divisor. -/
theorem natAbs_toInt_srem_lt (a : Word) {b : Word} (h0 : b ≠ 0#32) :
    (a.srem b).toInt.natAbs < b.toInt.natAbs := by
  have hb : b.toInt ≠ 0 := fun h => h0 (BitVec.eq_of_toInt_eq h)
  rw [BitVec.toInt_srem, Int.natAbs_tmod]
  exact Nat.mod_lt _ (Int.natAbs_pos.2 hb)

/-- The signed remainder is zero, when the divisor divides, or of the sign of the dividend. -/
theorem toInt_srem_eq_zero_or_sign (a b : Word) :
    (a.srem b).toInt = 0 ∨ (a.srem b).toInt.sign = a.toInt.sign := by
  rw [BitVec.toInt_srem]
  by_cases hd : b.toInt ∣ a.toInt
  · exact .inl (Int.tmod_eq_zero_of_dvd hd)
  · exact .inr (by rw [Int.sign_tmod, if_neg hd])

/-- Settles O8, by the three kinds of operand pair: zero divisor, the overflow pair, and the rest. -/
theorem signedDivideTruncates : Obligations.SignedDivideTruncates := by
  refine fun s f => ⟨encodeR_and_mask 0x1A#6 f, exec_isRaised_of_div_by_zero (.inl rfl), ?_, fun h0 hne => ?_⟩
  · rintro ⟨hrs, hrt⟩
    exact ⟨fun hc => completes_writeHiLo (exec_div_wraps hc hrs hrt), fun hc => exec_div_refused hc hrs hrt⟩
  · exact ⟨_, _, toInt_eq_sdiv_mul_add_srem hne, natAbs_toInt_srem_lt _ h0, toInt_srem_eq_zero_or_sign _ _,
      completes_writeHiLo (exec_div_of_ne_zero h0 fun h => hne h.2)⟩

end Sys2Proof.Machine
end

section
/-! ### Loads and stores (45_loads_stores.md R158 to R165) -/

namespace Sys2Proof.Machine

/-! #### The effective address -/

/-- Settles O11: `sext32` is the signed displacement, and the base register is not one the instruction writes. -/
theorem effectiveAddressAddsDisplacement : Obligations.EffectiveAddressAddsDisplacement := by
  refine fun s f => ⟨fun hmode => ?_, fun hmode => ?_, fun i t _ he hw => (exec_frame he).reg_eq f.rs hw⟩
  · rw [State.effectiveAddress, hmode, ← sext32_eq_ofInt]
  · rw [State.effectiveAddress, hmode, ← sext32_eq_ofInt]

/-! #### Loads -/

/-- No byte access is misaligned (R55). -/
theorem State.performs_byte (s : State) (a : Word) : s.Performs a .byte := fun _ => Nat.mod_one _

theorem State.load_performed {s : State} {ea : Word} {n : Size} (h : s.Performs ea n) (i : Instr)
    (extend : Word → Word) (r : Reg) : s.load i ea n extend r = .next (s.writeBack r (extend (s.memRead ea n))) :=
  if_neg (by simp [(s.performs_iff ea n).1 h])

/-- An instruction that comes to a performed load writes the extended value to its register, and changes nothing
else. -/
theorem completes_load {i : Instr} {s : State} {ea : Word} {n : Size} {extend : Word → Word} {r : Reg} {v : Word}
    (he : exec i s = s.load i ea n extend r) (h : s.Performs ea n) (hv : extend (s.memRead ea n) = v) :
    Completes i s { s.unchanged with reg := s.regWith r v } :=
  completes_writeBack (he.trans (hv ▸ State.load_performed h i extend r))

theorem State.sextByte_memRead (s : State) (a : Word) :
    sextByte (s.memRead a .byte) = (s.loadByte a).signExtend 32 := by
  rw [State.memRead_byte, sextByte, BitVec.setWidth_setWidth_of_le _ (by decide), BitVec.setWidth_eq]

theorem State.sextHalf_memRead (s : State) (a : Word) :
    sextHalf (s.memRead a .half) = (s.loadByte (a + 1#32) ++ s.loadByte a : BitVec 16).signExtend 32 := by
  rw [State.memRead_half, sextHalf, BitVec.setWidth_setWidth_of_le _ (by decide), BitVec.setWidth_eq]

/-- Settles O12: each of the three is a load of the bytes that its read concatenates. -/
theorem loadsReadAndExtend : Obligations.LoadsReadAndExtend := fun s f =>
  ⟨⟨encodeI_and_mask 0x23#6 f, fun h => completes_load rfl h (s.memRead_word _)⟩,
    ⟨encodeI_and_mask 0x20#6 f, completes_load rfl (s.performs_byte _) (s.sextByte_memRead _)⟩,
    ⟨encodeI_and_mask 0x21#6 f, fun h => completes_load rfl h (s.sextHalf_memRead _)⟩⟩

/-! #### Stores -/

/-- A byte read after a committed store is a byte read after its `MemWrite`. -/
theorem State.loadByte_memWrite_commit (s : State) (ea v a : Word) (n : Size) :
    (s.beginStep.memWrite ea n v).commit.loadByte a = (s.memWrite ea n v).loadByte a :=
  State.loadByte_congr (by simp) (State.memWrite_mem_congr (s := s) (t := s.beginStep) rfl rfl ea v n) a

/-- An instruction that comes to a performed store writes its bytes that lie in segments, and changes nothing else. -/
theorem completes_store {i : Instr} {s : State} {ea v : Word} {n : Size} (hm : Memory.wf s.mem)
    (he : exec i s = s.store i ea n v) (h : s.Performs ea n) :
    Completes i s { s.unchanged with byte := s.bytesWith ea n.bytes v } := by
  obtain ⟨hc, hreg, -⟩ := s.memWrite_commit_spec ea v n
  exact hc.completes (he.trans (State.store_performed h i v)) hreg fun a =>
    (s.loadByte_memWrite_commit ea v a n).trans (State.loadByte_memWrite hm ea v a n)

/-- Settles O13: each of the three is a store of its width, and a byte store is always performed. -/
theorem storesWriteTheirBytes : Obligations.StoresWriteTheirBytes := fun s _ hm =>
  ⟨⟨encodeI_and_mask 0x2B#6 _, completes_store hm rfl⟩,
    ⟨encodeI_and_mask 0x28#6 _, completes_store hm rfl (s.performs_byte _)⟩,
    ⟨encodeI_and_mask 0x29#6 _, completes_store hm rfl⟩⟩

/-! #### A store followed by a load -/

/-- An aligned word read after a word write at its address gives the value written, or 0 outside segments. -/
theorem State.Inv.memRead_memWrite_word_eq_ite {s : State} (hs : s.Inv) {a : Word} (ha : a.toNat % 4 = 0) (v : Word) :
    (s.memWrite a .word v).memRead a .word = if s.config.mapped a = true then v else 0#32 := by
  split
  · next hmap => exact hs.memRead_memWrite_word ha hmap v
  · next hmap =>
    refine State.memRead_unmapped fun k hk => ?_
    rw [State.memWrite_config, mapped_of_aligned (n := .word) hs.config_wf ha hk]
    exact Bool.eq_false_iff.2 hmap

/-- A performed LW leaves the word it reads in its register, unless that is register 0. -/
theorem exec_lw_reg {s : State} {f : IFields} (h : s.Performs (s.effectiveAddress f) .word) (hrt : f.rt ≠ 0#5) :
    ∃ u, exec (.lw f) s = .next u ∧ u.reg f.rt = s.memRead (s.effectiveAddress f) .word := by
  obtain ⟨-, hreg, -⟩ := s.writeBack_spec f.rt (s.memRead (s.effectiveAddress f) .word)
  exact ⟨_, State.load_performed h (.lw f) id f.rt, (hreg f.rt).trans (if_pos ⟨rfl, hrt⟩)⟩

/-- Settles O57: both accesses are performed, and the load reads the memory of the store's `MemWrite`. -/
theorem storeThenLoadGivesTheValue : Obligations.StoreThenLoadGivesTheValue := by
  intro s t f g hs ha h hea hrt
  have hsw : exec (.sw f) s = .next (s.beginStep.memWrite (s.effectiveAddress f) .word (s.reg f.rt)).commit := by
    rw [exec_sw, State.store_performed fun _ => ha]
  have ht : t = (s.beginStep.memWrite (s.effectiveAddress f) .word (s.reg f.rt)).commit :=
    Host.Outcome.next.inj (h.symm.trans hsw)
  have hlw : t.Performs (t.effectiveAddress g) .word := fun _ => hea ▸ ha
  obtain ⟨u, hu, hval⟩ := exec_lw_reg hlw hrt
  refine ⟨u, hu, ?_⟩
  rw [hval, hea, ht, State.memRead_memWrite_commit, hs.memRead_memWrite_word_eq_ite ha]

end Sys2Proof.Machine
end

section
/-! ### Branches and jumps (46_control_transfer.md R166 to R180) -/

namespace Sys2Proof

/-- The mask of R87 keeps the opcode and the rt of an encoded word, whatever its rs and immediate. -/
theorem encodeI_and_maskRegimm (k : BitVec 6) {f : IFields} {r : Reg} (hrt : f.rt = r) :
    encodeI k f &&& 0xFC1F0000#32 = encodeI k { rs := 0, rt := r, imm := 0 } :=
  (maskRegimm_iff _ k r).2 ⟨opcodeOf_encodeI k f, (rtOf_encodeI k f).trans hrt⟩

/-- The mask of R88 keeps the opcode of an encoded word, whatever its target. -/
theorem encodeJ_and_mask (k : BitVec 6) (f : JFields) :
    encodeJ k f &&& 0xFC000000#32 = encodeI k { rs := 0, rt := 0, imm := 0 } :=
  (maskI_iff _ k).2 (opcodeOf_encodeJ k f)

namespace Machine

/-! #### Branches -/

/-- BNE comes to a branch on the inequality of its registers (R171). -/
theorem exec_bne (f : IFields) (s : State) :
    exec (.bne f) s = .next (s.branch (decide (s.reg f.rs ≠ s.reg f.rt)) (s.branchTarget f)) := by
  rw [decide_not]
  rfl

/-- Settles O15: both are branches on the comparison of their registers. -/
theorem twoRegisterBranchesSelectTheTarget : Obligations.TwoRegisterBranchesSelectTheTarget := fun s f =>
  ⟨⟨encodeI_and_mask 0x04#6 f, completes_branch rfl⟩, ⟨encodeI_and_mask 0x05#6 f, completes_branch (exec_bne f s)⟩⟩

/-- Settles O16: each of the four is a branch on the sign of rs, and R87 tells BLTZ and BGEZ apart by rt. -/
theorem signBranchesSelectTheTarget : Obligations.SignBranchesSelectTheTarget := fun _ f =>
  ⟨⟨encodeI_and_mask 0x06#6 f, completes_branch rfl⟩, ⟨encodeI_and_mask 0x07#6 f, completes_branch rfl⟩,
    fun hrt => ⟨encodeI_and_maskRegimm 0x01#6 hrt, completes_branch rfl⟩,
    fun hrt => ⟨encodeI_and_maskRegimm 0x01#6 hrt, completes_branch rfl⟩⟩

/-! #### Jumps -/

/-- The mask of R169 keeps the upper four bits in their place. -/
theorem and_upperNibble (w : Word) : w &&& 0xF0000000#32 = (w.extractLsb' 28 4).setWidth 32 <<< 28 := by
  have hw : (w.extractLsb' 28 4 ++ w.extractLsb' 0 28 : BitVec (4 + 28)) = w :=
    BitVec.extractLsb'_append_extractLsb' (w := 4) (len := 28)
  have hmask : (BitVec.allOnes 4 ++ 0#28 : BitVec (4 + 28)) = 0xF0000000#32 := by decide
  calc w &&& 0xF0000000#32
      = (w.extractLsb' 28 4 ++ w.extractLsb' 0 28) &&& (BitVec.allOnes 4 ++ 0#28) := by rw [hw, hmask]
    _ = w.extractLsb' 28 4 ++ 0#28 := by rw [BitVec.and_append, BitVec.and_allOnes, BitVec.and_zero]
    _ = (w.extractLsb' 28 4 ++ 0#28).setWidth 32 := (BitVec.setWidth_eq _).symm
    _ = (w.extractLsb' 28 4).setWidth 32 <<< 28 :=
      BitVec.setWidth_append_eq_shiftLeft_setWidth_or.trans BitVec.or_zero

/-- The jump target is the upper four bits of the PC, the 26-bit target and two zero bits (R169). -/
theorem State.jumpTarget_eq_append (s : State) (f : JFields) :
    s.jumpTarget f = (s.pc.extractLsb' 28 4 ++ f.target ++ 0#2 : Word) := by
  calc s.jumpTarget f
      = (s.pc.extractLsb' 28 4).setWidth 32 <<< 28 ||| f.target.setWidth 32 <<< 2 ||| (0#2).setWidth 32 := by
        rw [State.jumpTarget, and_upperNibble]
        exact BitVec.or_zero.symm
    _ = (s.pc.extractLsb' 28 4 ++ f.target ++ 0#2).setWidth 32 := by
        rw [BitVec.setWidth_append_append_eq_shiftLeft_setWidth_or]
    _ = (s.pc.extractLsb' 28 4 ++ f.target ++ 0#2 : Word) := BitVec.setWidth_eq _

/-- An instruction that comes to a jump goes to its target, and changes nothing else. -/
theorem completes_jump {i : Instr} {s : State} {target : Word} (he : exec i s = .next (s.jump target)) :
    Completes i s { s.unchanged with pc := target } := by
  obtain ⟨hc, hreg, hmem⟩ := s.jump_spec target
  exact hc.completes he hreg fun a => State.loadByte_congr hc.config_eq hmem a

/-- An instruction that comes to a linking jump goes to its target and writes its link register, unless that is
register 0, and changes nothing else. -/
theorem completes_jumpAndLink {i : Instr} {s : State} {r : Reg} {link target : Word}
    (he : exec i s = .next (s.jumpAndLink r link target)) :
    Completes i s { s.unchanged with pc := target, reg := s.regWith r link } := by
  obtain ⟨hc, hreg, hmem⟩ := s.jumpAndLink_spec r link target
  exact hc.completes he hreg fun a => State.loadByte_congr hc.config_eq hmem a

/-- Settles O17: a jump and a linking jump, both to the concatenated target. -/
theorem jumpsReachTheirTargets : Obligations.JumpsReachTheirTargets := by
  intro s f
  rw [← State.jumpTarget_eq_append]
  exact ⟨⟨encodeJ_and_mask 0x02#6 f, completes_jump rfl⟩, ⟨encodeJ_and_mask 0x03#6 f, completes_jumpAndLink rfl⟩⟩

/-- Settles O18: a jump and a linking jump, both to the value rs holds before the instruction. -/
theorem registerJumpsReadTheOldValue : Obligations.RegisterJumpsReadTheOldValue := fun _ f =>
  ⟨⟨encodeR_and_mask 0x08#6 f, completes_jump rfl⟩, ⟨encodeR_and_mask 0x09#6 f, completes_jumpAndLink rfl⟩⟩

end Machine

end Sys2Proof
end

section
/-! ### The halt instruction (47_system.md R185) -/

namespace Sys2Proof.Machine

theorem exec_syscall_advances {s : State} (f : RFields) (h : s.syscallHalts ≠ true) :
    exec (.syscall f) s = .next s.advance :=
  if_neg h

/-- An instruction that comes to the default PC advance changes nothing else. -/
theorem completes_advance {i : Instr} {s : State} (he : exec i s = .next s.advance) : Completes i s s.unchanged := by
  obtain ⟨hc, hreg, hmem⟩ := s.advance_spec
  exact hc.completes he hreg fun a => State.loadByte_congr hc.config_eq hmem a

/-- Settles O19: SYSCALL is the default PC advance, and `State.halt` after it replaces only the run flag and the
report. -/
theorem syscallHaltsOnItsCondition : Obligations.SyscallHaltsOnItsCondition := by
  refine fun s f => ⟨encodeR_and_mask 0x0C#6 f, fun hcond => ?_, fun hconfig hreg => ?_⟩
  · obtain ⟨hc, hreg, hmem⟩ := s.advance_spec
    exact ⟨_, exec_syscall_halts f (s.syscallHalts_iff.2 hcond), hc.pc_eq, hreg, hc.hi_eq, hc.lo_eq, hmem, hc.copies,
      hc.config_eq, hc.count_eq, rfl, rfl⟩
  · have hno : s.syscallHalts ≠ true := by
      rw [Ne, State.syscallHalts_iff, hconfig]
      exact fun h => h.elim nofun hreg
    exact completes_advance (exec_syscall_advances f hno)

end Sys2Proof.Machine
end

section
/-! ### The host interface (60_exceptions.md R202)

No command changes the configuration, and each either steps, resets, stops, or leaves the PC, the run flag and the
report alone; `State.Inv.of_same_pc` covers the last kind. -/

namespace Sys2Proof.Machine

/-! #### What the setters and loadWord do -/

theorem State.overrideReg_reg (s : State) (r : Reg) (v : Word) (q : Reg) :
    (s.overrideReg r v).reg q = s.regWith r v q :=
  s.current.reg_setReg r q v

theorem State.overrideReg_copies {s : State} (h : s.next = s.current) (r : Reg) (v : Word) :
    (s.overrideReg r v).next = (s.overrideReg r v).current :=
  congrArg (·.setReg r v) h

theorem State.overrideHi_copies {s : State} (h : s.next = s.current) (v : Word) :
    (s.overrideHi v).next = (s.overrideHi v).current :=
  congrArg (fun p : Proc => { p with hi := v }) h

theorem State.overrideLo_copies {s : State} (h : s.next = s.current) (v : Word) :
    (s.overrideLo v).next = (s.overrideLo v).current :=
  congrArg (fun p : Proc => { p with lo := v }) h

theorem State.memWrite_frame (s : State) (a : Word) (n : Size) (v : Word) : SameButMem s (s.memWrite a n v) := by
  constructor <;> simp

theorem State.loadWord_performed {s : State} {a : Word} (h : s.Performs a .word) (v : Word) :
    s.loadWord a v = .next (s.memWrite a .word v) :=
  if_neg (by simp [(s.performs_iff a .word).1 h])

theorem State.loadWord_not_performed {s : State} {a : Word} (h : ¬s.Performs a .word) (v : Word) :
    s.loadWord a v = .fault (.loadWordMisaligned a) :=
  if_pos ((s.not_performs_iff a .word).1 h)

/-! #### What keeps the invariant -/

/-- A machine with the configuration, PC, run flag and report it had, and registers and memory in order, meets the
invariant: its report is as much in order as it was. -/
theorem State.Inv.of_same_pc {s t : State} (h : s.Inv) (hconfig : t.config = s.config) (hpc : t.pc = s.pc)
    (hrun : t.run = s.run) (hreport : t.report = s.report) (hcopies : t.next = t.current)
    (hzero : t.current.regs[0] = 0#32)
    (hmem : Memory.wf t.mem ∧ ∀ c ∈ t.mem, s.config.mapped (BitVec.ofNat 32 c.1) = true) : t.Inv where
  config_wf := hconfig ▸ h.config_wf
  copies_agree := hcopies
  zero_register := hzero
  mem_wf := hmem.1
  mem_mapped := hconfig ▸ hmem.2
  report_none := by rw [hrun, hreport, h.report_none]
  report_wf := by
    rw [hreport, hconfig, hpc]
    exact h.report_wf

theorem State.Inv.stop {s : State} (h : s.Inv) : s.stop.Inv :=
  h.of_halted rfl rfl h.copies_agree rfl rfl rfl ⟨rfl, rfl, rfl⟩

theorem State.Inv.overrideReg {s : State} (h : s.Inv) (r : Reg) (v : Word) : (s.overrideReg r v).Inv :=
  h.of_same_pc rfl (s.current.setReg_pc r v) rfl rfl (State.overrideReg_copies h.copies_agree r v)
    ((s.current.setReg_stored_zero r v).trans h.zero_register) ⟨h.mem_wf, h.mem_mapped⟩

theorem State.Inv.overrideHi {s : State} (h : s.Inv) (v : Word) : (s.overrideHi v).Inv :=
  h.of_same_pc rfl rfl rfl rfl (State.overrideHi_copies h.copies_agree v) h.zero_register ⟨h.mem_wf, h.mem_mapped⟩

theorem State.Inv.overrideLo {s : State} (h : s.Inv) (v : Word) : (s.overrideLo v).Inv :=
  h.of_same_pc rfl rfl rfl rfl (State.overrideLo_copies h.copies_agree v) h.zero_register ⟨h.mem_wf, h.mem_mapped⟩

theorem State.Inv.memWrite {s : State} (h : s.Inv) (a : Word) (n : Size) (v : Word) : (s.memWrite a n v).Inv := by
  obtain ⟨hconfig, hcurrent, hnext, hrun, -, hreport⟩ := s.memWrite_frame a n v
  exact h.of_same_pc hconfig (congrArg Proc.pc hcurrent) hrun hreport
    (hnext.trans (h.copies_agree.trans hcurrent.symm)) (hcurrent ▸ h.zero_register)
    (State.memWrite_keeps h.mem_wf h.mem_mapped a v n)

theorem State.Inv.loadWord {s t : State} {a v : Word} (h : s.Inv) (ht : s.loadWord a v = .next t) : t.Inv := by
  by_cases ha : s.Performs a .word
  · cases (State.loadWord_performed ha v).symm.trans ht
    exact h.memWrite a .word v
  · cases (State.loadWord_not_performed ha v).symm.trans ht

theorem State.Inv.loadImageWord {s : State} (h : s.Inv) (k : Nat) (w : Word) : (s.loadImageWord k w).Inv := by
  unfold State.loadImageWord
  split
  · exact h.memWrite _ _ _
  · exact h

theorem State.Inv.loadImageFrom (ws : List Word) {s : State} (h : s.Inv) (k : Nat) : (s.loadImageFrom k ws).Inv := by
  induction ws generalizing s k with
  | nil => exact h
  | cons w ws ih => exact ih (h.loadImageWord k w) (k + 1)

/-- The state after reset meets the invariant, whatever the configuration and its image (R210, R214). -/
theorem State.afterReset_inv {c : Config} (hc : c.wf = true) : (State.afterReset c).Inv :=
  (State.initial_inv hc).loadImageFrom c.image 0

theorem State.Inv.runSteps {n : Nat} {s t : State} (h : s.Inv) (ht : s.runSteps n = .next t) : t.Inv := by
  induction n generalizing s with
  | zero =>
    cases ht
    exact h
  | succ n ih =>
    cases hrun : s.run with
    | halted =>
      cases (State.runSteps_of_halted hrun _).symm.trans ht
      exact h
    | running =>
      obtain ⟨u, hs, hu⟩ := State.step_of_runSteps_succ hrun ht
      exact ih (step_keeps_inv h hs) hu

/-- Settles O42, command by command. -/
theorem hostCommandsKeepTheInvariant : Obligations.HostCommandsKeepTheInvariant := by
  intro s t c h ht
  cases c with
  | step => exact step_keeps_inv h ht
  | run n => exact h.runSteps ht
  | reset =>
    cases ht
    exact State.afterReset_inv h.config_wf
  | stop =>
    cases ht
    exact h.stop
  | setReg r v =>
    cases ht
    exact h.overrideReg r v
  | setHi v =>
    cases ht
    exact h.overrideHi v
  | setLo v =>
    cases ht
    exact h.overrideLo v
  | loadWord a v => exact h.loadWord ht

/-- Settles O43: stop and the setters are record updates, and loadWord is a `MemWrite` when it is performed. -/
theorem hostCommandsDoWhatTheyName : Obligations.HostCommandsDoWhatTheyName := by
  refine fun s => ⟨?stop, fun r v => ?setReg, fun v => ?setHi, fun v => ?setLo, fun a v hm ha => ?loadWord,
    fun a v ha => State.loadWord_not_performed ha v⟩
  case stop => exact ⟨s.stop, rfl, rfl, rfl, rfl, rfl, rfl, rfl, rfl⟩
  case setReg =>
    exact ⟨s.overrideReg r v, rfl, s.overrideReg_reg r v, (State.overrideReg_copies · r v),
      s.current.setReg_pc r v, s.current.setReg_hi r v, s.current.setReg_lo r v, rfl, rfl, rfl, rfl, rfl⟩
  case setHi =>
    exact ⟨s.overrideHi v, rfl, rfl, rfl, fun _ => rfl, (State.overrideHi_copies · v), rfl, rfl, rfl, rfl, rfl, rfl⟩
  case setLo =>
    exact ⟨s.overrideLo v, rfl, rfl, rfl, fun _ => rfl, (State.overrideLo_copies · v), rfl, rfl, rfl, rfl, rfl, rfl⟩
  case loadWord =>
    obtain ⟨hconfig, hcurrent, hnext, hrun, hcount, hreport⟩ := s.memWrite_frame a .word v
    exact ⟨_, State.loadWord_performed ha v, fun b => State.loadByte_memWrite hm a v b .word, hcurrent, hnext, hrun,
      hcount, hreport, hconfig⟩

end Sys2Proof.Machine
end
